-- ==== Sys2Proof/Word.lean ====
section
/-! DEFINITION. The words TS48-B64 moves: the command word, the binary64 pattern, the 48-bit value, character codes. -/

namespace Sys2Proof

/-- A command word, 72 bits (30_encoding.md R60). -/
abbrev Cmd := BitVec 72

/-- A numeric operand or clock sample: a binary64 pattern as one parallel word (20_memory.md R43). -/
abbrev F64 := BitVec 64

/-- The normalized 48-bit value, which is also the six-byte buffer as one word (20_memory.md R41). -/
abbrev U48 := BitVec 48

/-- A byte of the buffer, or a character code (10_state.md R22). -/
abbrev Byte := BitVec 8

/-- A 6-bit group, the index of an alphabet entry (00_scope.md R13, 41_encode.md R121). -/
abbrev Sextet := BitVec 6

end Sys2Proof
end

