-- ==== Sys2Proof/Syntax.lean ====
section
/-! DEFINITION. The four commands of spec/opcode_table.json, one constructor a row, with the fields of the row. -/

namespace Sys2Proof

/-- One command, as the fields its row of the opcode table names (30_encoding.md R60 to R63). Reserved fields are
kept, because the spec gives each command an outcome for a non-zero one (R64, R69). -/
inductive Instr where
  /-- PACK (40_pack.md R97): `LEN`, reserved, and the binary64 operand. -/
  | pack (len : BitVec 4) (operand : F64)
  /-- ENCODE (41_encode.md R125): the claimed byte count, `OPERAND[63:48]`, reserved, and the six bytes. -/
  | encode (len : BitVec 4) (operandHi : BitVec 16) (bytes : U48)
  /-- GEN (42_generate.md R150): `LEN`, reserved, and the binary64 operand. -/
  | gen (len : BitVec 4) (operand : F64)
  /-- GEN_NOW (42_generate.md R151): `LEN` and `OPERAND`, both reserved. -/
  | genNow (len : BitVec 4) (operand : BitVec 64)
deriving DecidableEq, Repr

end Sys2Proof
end

