-- ==== Sys2Proof/WellFormed.lean ====
section
/-! DEFINITION. Which commands are legal: every reserved field is zero (30_encoding.md R64). -/

namespace Sys2Proof

/-- Why a command word has no meaning (30_encoding.md R65). -/
inductive IllegalWord where
  /-- R65 item 1: an opcode other than 0x1 to 0x4. -/
  | opcode (op : BitVec 4)
  /-- R65 items 2 and 4: `LEN` is reserved and not zero. -/
  | reservedLen
  /-- R65 items 3 and 4: a reserved part of `OPERAND` is not zero. -/
  | reservedOperand
deriving DecidableEq, Repr

/-- The reserved field of a command that is not zero, if there is one (30_encoding.md R64). -/
def Instr.reservedField : Instr → Option IllegalWord
  | .pack len _ => if len = 0#4 then none else some .reservedLen
  | .encode _ operandHi _ => if operandHi = 0#16 then none else some .reservedOperand
  | .gen len _ => if len = 0#4 then none else some .reservedLen
  | .genNow len operand =>
    if len ≠ 0#4 then some .reservedLen else if operand ≠ 0#64 then some .reservedOperand else none

/-- A command is well-formed when its reserved fields are zero. An ENCODE with `LEN` other than 6 is well-formed: it
has a meaning, the error InvalidLength (41_encode.md R120, 30_encoding.md R74). -/
def Instr.wellFormed (i : Instr) : Bool := i.reservedField == none

end Sys2Proof
end

