-- ==== Sys2Proof/Decode.lean ====
section
/-! DEFINITION. The decoder, total on every 72-bit word and refusing by name, and after it the encoder
(30_encoding.md R60 to R65, R70, R74). -/

namespace Sys2Proof

/-- `OP = CMD[71:68]` (30_encoding.md R60). -/
def opField (w : Cmd) : BitVec 4 := w.extractLsb' 68 4

/-- `LEN = CMD[67:64]` (30_encoding.md R60). -/
def lenField (w : Cmd) : BitVec 4 := w.extractLsb' 64 4

/-- `OPERAND = CMD[63:0]` (30_encoding.md R60). -/
def operandField (w : Cmd) : BitVec 64 := w.extractLsb' 0 64

/-- `OPERAND[63:48]`, reserved in an ENCODE (30_encoding.md R63). -/
def operandHiField (w : Cmd) : BitVec 16 := w.extractLsb' 48 16

/-- `OPERAND[47:0]`, the six bytes of an ENCODE (30_encoding.md R63). -/
def bytesField (w : Cmd) : U48 := w.extractLsb' 0 48

/-- The fields of a word by its opcode alone, which is all a decoder needs to know the format
(30_encoding.md R61, R70). -/
def parse (w : Cmd) : Option Instr :=
  if opField w = 0x1#4 then some (.pack (lenField w) (operandField w))
  else if opField w = 0x2#4 then some (.encode (lenField w) (operandHiField w) (bytesField w))
  else if opField w = 0x3#4 then some (.gen (lenField w) (operandField w))
  else if opField w = 0x4#4 then some (.genNow (lenField w) (operandField w))
  else none

/-- What a word decodes to: one of the four commands, or the name of why it is illegal (30_encoding.md R65). -/
inductive Decoded where
  | instr (i : Instr)
  | illegal (why : IllegalWord)
deriving DecidableEq, Repr

/-- The decoder (30_encoding.md R61, R64, R65): total, and every word with a non-zero reserved field is refused. -/
def decode (w : Cmd) : Decoded :=
  match parse w with
  | none => .illegal (.opcode (opField w))
  | some i =>
    match i.reservedField with
    | none => .instr i
    | some why => .illegal why

/-- The instruction of a decoded word, if it is legal. -/
def Decoded.toInstr : Decoded → Option Instr
  | .instr i => some i
  | .illegal _ => none

/-- The decoder on a word numbered as spec/opcode_table.json numbers it. The table's bit numbers are those of the `CMD`
port (30_encoding.md R60, R74), so the word is the port's level; log entry 15. -/
def decodeTableWord (nbits w : Nat) : Option Instr := (decode (BitVec.ofNat 72 (w % 2 ^ nbits))).toInstr

/-- The command word of an instruction (30_encoding.md R60 to R63). -/
def encode : Instr → Cmd
  | .pack len operand => 0x1#4 ++ len ++ operand
  | .encode len operandHi bytes => 0x2#4 ++ len ++ operandHi ++ bytes
  | .gen len operand => 0x3#4 ++ len ++ operand
  | .genNow len operand => 0x4#4 ++ len ++ operand

/-- The mnemonic of an instruction, as spec/opcode_table.json spells it. -/
def mnemonicOf : Instr → String
  | .pack _ _ => "PACK"
  | .encode _ _ _ => "ENCODE"
  | .gen _ _ => "GEN"
  | .genNow _ _ => "GEN_NOW"

/-- A row of spec/opcode_table.json: its mnemonic, `match` and `mask` (30_encoding.md R74). -/
structure TableRow where
  mnemonic : String
  bits : Cmd
  mask : Cmd
deriving DecidableEq, Repr

/-- The rows of spec/opcode_table.json. No definition decodes by them; statements compare the decoder with them. -/
def tableRows : List TableRow :=
  [{ mnemonic := "PACK", bits := 0x100000000000000000, mask := 0xFF0000000000000000 },
   { mnemonic := "ENCODE", bits := 0x200000000000000000, mask := 0xF0FFFF000000000000 },
   { mnemonic := "GEN", bits := 0x300000000000000000, mask := 0xFF0000000000000000 },
   { mnemonic := "GEN_NOW", bits := 0x400000000000000000, mask := 0xFFFFFFFFFFFFFFFFFF }]

/-- A word is a row's command when its bits under the mask are the row's (30_encoding.md R74). -/
def TableRow.covers (r : TableRow) (w : Cmd) : Bool := w &&& r.mask == r.bits

end Sys2Proof
end

