-- ==== Sys2Proof/Config.lean ====
section
/-! DEFINITION. What an implementation fixes, and the free values: constants with no body, so that no proof can know
one. Each is a function of the edge count where it is drawn afresh. -/

namespace Sys2Proof

/-- `LATENCY`, OPEN, 0 or more (00_scope.md R8). DESIGN CHOICE (log entry 3): an opaque constant. -/
opaque Config.latency : Nat

/-- `MAX_OUTSTANDING` less one, for `LATENCY` of 1 or more (00_scope.md R8). DESIGN CHOICE (log entry 3). -/
opaque Config.extraOutstanding : Nat

/-- `MAX_OUTSTANDING`, OPEN, 1 or more (00_scope.md R8), and 1 for `LATENCY = 0` (70_reset_and_hazards.md R207). -/
def Config.maxOutstanding : Nat := if Config.latency = 0 then 1 else Config.extraOutstanding + 1

/-- For how many edges `CMD_READY` stays low after a reset edge or an acceptance at the given edge: some finite number
(70_reset_and_hazards.md R201). A free value, log entry 4. -/
opaque Config.readyDelay : Nat → Nat

/-- `CMD_READY` where the spec leaves it UNSPECIFIED: while `RST = 1` and before the first reset
(70_reset_and_hazards.md R201, R202). A free value, log entry 8. -/
opaque Config.freeReady : Nat → Bool

/-- `RSP_VALID` before the first reset (70_reset_and_hazards.md R202). A free value, log entry 9. -/
opaque Config.freeValid : Nat → Bool

/-- `RSP_STATUS` while it means nothing (70_reset_and_hazards.md R201). A free value, log entry 8. -/
opaque Config.freeStatus : Nat → BitVec 2

/-- `RSP_RESULT` while it means nothing (70_reset_and_hazards.md R201). A free value, log entry 8. -/
opaque Config.freeResult : Nat → BitVec 64

/-- The sample of a GEN_NOW whose `NOW_MS` changes on the acceptance edge (70_reset_and_hazards.md R206). A free value,
log entry 10. -/
opaque Config.unheldNow : Nat → F64

end Sys2Proof
end

