-- ==== Sys2Proof/Machine/Alphabet.lean ====
section
/-! DEFINITION. The contents of the alphabet ROM (10_state.md R22) and the one operation that reads an entry. -/

namespace Sys2Proof.Machine

/-- `A` to `Z`, indices 0 to 25 (10_state.md R22). -/
def upperCase : Vector Byte 26 :=
  #v[0x41, 0x42, 0x43, 0x44, 0x45, 0x46, 0x47, 0x48, 0x49, 0x4A, 0x4B, 0x4C, 0x4D,
     0x4E, 0x4F, 0x50, 0x51, 0x52, 0x53, 0x54, 0x55, 0x56, 0x57, 0x58, 0x59, 0x5A]

/-- `a` to `z`, indices 26 to 51 (10_state.md R22). -/
def lowerCase : Vector Byte 26 :=
  #v[0x61, 0x62, 0x63, 0x64, 0x65, 0x66, 0x67, 0x68, 0x69, 0x6A, 0x6B, 0x6C, 0x6D,
     0x6E, 0x6F, 0x70, 0x71, 0x72, 0x73, 0x74, 0x75, 0x76, 0x77, 0x78, 0x79, 0x7A]

/-- `0` to `9`, then `-` and `_`, indices 52 to 63 (10_state.md R22). -/
def digitsAndMarks : Vector Byte 12 :=
  #v[0x30, 0x31, 0x32, 0x33, 0x34, 0x35, 0x36, 0x37, 0x38, 0x39, 0x2D, 0x5F]

/-- The fixed contents of `ALPHABET[0..63]` (10_state.md R22). -/
def alphabetTable : Vector Byte 64 := upperCase ++ lowerCase ++ digitsAndMarks

/-- `ALPHABET[i]`: a sextet always lands on an entry (00_scope.md R11, 41_encode.md R123). -/
def alphabetAt (rom : Vector Byte 64) (i : Sextet) : Byte := rom[i.toNat]'i.isLt

end Sys2Proof.Machine
end

