-- ==== Sys2Proof/Machine/State.lean ====
section
/-! DEFINITION. The state of one TS48-B64 block and of what its host drives, the reasons a step stops, and the state
right after reset (10_state.md R22, R27, R30, R31; 70_reset_and_hazards.md R201). All of it is plain data. -/

namespace Sys2Proof.Machine

/-- One response: `STATUS` and `RESULT` (30_encoding.md R66). -/
structure Response where
  status : BitVec 2
  result : BitVec 64
deriving DecidableEq, Repr

/-- An accepted command as the block holds it: the word, and the `NOW_MS` sample when it is a GEN_NOW
(10_state.md R30). -/
structure Accepted where
  cmd : Cmd
  sample : Option F64
deriving DecidableEq, Repr

/-- A command accepted but not yet answered (10_state.md R30). `rsp` and `age` are the model's own: the response it was
given at acceptance, and the edges since then (log entry 7). -/
structure Pending where
  entry : Accepted
  rsp : Response
  age : Nat
deriving DecidableEq, Repr

/-- The levels on the input ports (10_state.md R27) at one rising edge of `CLK`. -/
structure InputPorts where
  rst : Bool
  cmdValid : Bool
  cmd : Cmd
  nowMs : F64
  /-- The model's own: does the host hold `NOW_MS` stable across this edge (70_reset_and_hazards.md R206)? Log entry 10. -/
  nowHeld : Bool
  rspReady : Bool
deriving DecidableEq, Repr

/-- The levels on the output ports (10_state.md R27). -/
structure OutputPorts where
  cmdReady : Bool
  rspValid : Bool
  rspStatus : BitVec 2
  rspResult : BitVec 64
deriving DecidableEq, Repr

/-- The two OPEN timing parameters (00_scope.md R8), an argument of every step. No step changes them. Log entry 3. -/
structure Params where
  latency : Nat
  maxOutstanding : Nat
deriving DecidableEq, Repr

/-- What the host has seen since the last reset: the commands accepted and the responses taken, oldest first
(20_memory.md R49). The model's own, log entry 12. -/
structure Record where
  accepted : List Accepted
  taken : List Response
deriving DecidableEq, Repr

/-- Has a reset edge happened yet (70_reset_and_hazards.md R202)? -/
inductive Phase where
  /-- Power-up: no reset edge yet, the block's state UNSPECIFIED. -/
  | beforeReset
  /-- At least one reset edge has happened: the rules of the spec hold. -/
  | operating
deriving DecidableEq, Repr

/-- The machine: the block's own state, its ports, and the inputs still to come. -/
structure State where
  /-- `ALPHABET[0..63]` (10_state.md R22). No step writes it (R23). -/
  alphabet : Vector Byte 64
  /-- The outstanding-command set, oldest first (10_state.md R30, 20_memory.md R49). -/
  outstanding : List Pending
  /-- The input ports at the coming edge. -/
  pins : InputPorts
  /-- The input ports at the edges after it, in order; when it is used up the host idles (log entry 2). -/
  script : List InputPorts
  /-- The output ports as they stood at the latest edge (log entry 8). -/
  out : OutputPorts
  /-- What the host has seen since the last reset. -/
  record : Record
  /-- `LATENCY` and `MAX_OUTSTANDING`. -/
  params : Params
  phase : Phase
  /-- The model's own: for how many more edges the block holds `CMD_READY` low (log entry 4). -/
  stall : Nat
  /-- The model's own: the edge count, argument of the free values (log entry 17). -/
  tick : Nat
deriving DecidableEq, Repr

/-- Why the machine stops with a fault. -/
inductive Fault where
  /-- A held response has `STATUS = 3`, which a conforming block never produces (60_exceptions.md R171,
  93_implementation_defined.md I5). Raised by the step when it closes an edge. Safe: no state that meets the model's
  invariant raises it. -/
  | nonconformingStatus
deriving DecidableEq, Repr

/-- Why the machine gives a step no meaning. -/
inductive Refusal where
  /-- An instruction with no meaning yet; no arm of `exec` answers it. Safe. -/
  | notModelled (mnemonic : String)
  /-- A command presented before the first reset edge, whose response is UNSPECIFIED (70_reset_and_hazards.md R202).
  Raised by the step. Safe. -/
  | beforeFirstReset
deriving DecidableEq, Repr

/-- The input ports while the host presents nothing: `RST = 0`, `CMD_VALID = 0`, every response taken.
DESIGN CHOICE (log entry 2). -/
def InputPorts.idle : InputPorts :=
  { rst := false, cmdValid := false, cmd := 0, nowMs := 0, nowHeld := true, rspReady := true }

/-- Nothing accepted and nothing taken yet. -/
def Record.empty : Record := { accepted := [], taken := [] }

/-- The machine right after reset, `RST` back at 0 and nothing presented (70_reset_and_hazards.md R201, R204): the
alphabet untouched, the outstanding set empty, `RSP_VALID` 0, what R201 leaves UNSPECIFIED a free value. -/
def State.reset : State where
  alphabet := alphabetTable
  outstanding := []
  pins := .idle
  script := []
  out :=
    { cmdReady := Config.freeReady 0, rspValid := false, rspStatus := Config.freeStatus 0,
      rspResult := Config.freeResult 0 }
  record := .empty
  params := { latency := Config.latency, maxOutstanding := Config.maxOutstanding }
  phase := .operating
  stall := if Config.latency = 0 then 0 else Config.readyDelay 0
  tick := 1

end Sys2Proof.Machine
end

