-- ==== Sys2Proof/Machine/Flags.lean ====
section
/-! DEFINITION. The block has no flags (10_state.md R25). What it has instead is the 2-bit `STATUS` of each response:
the error kinds and their codes (60_exceptions.md R170, R171). -/

namespace Sys2Proof.Machine

/-- `STATUS` of a completed command (60_exceptions.md R171). -/
def statusOk : BitVec 2 := 0#2

/-- The two error kinds (60_exceptions.md R171). -/
inductive ErrorKind where
  | invalidLength
  | illegalCommand
deriving DecidableEq, Repr

/-- `code(E)` (60_exceptions.md R171). -/
def errorCode : ErrorKind → BitVec 2
  | .invalidLength => 1#2
  | .illegalCommand => 2#2

/-- The response of a completed command. -/
def okResponse (result : BitVec 64) : Response := { status := statusOk, result := result }

/-- The response of an error: its code, and a result of zero (60_exceptions.md R170). -/
def errorResponse (e : ErrorKind) : Response := { status := errorCode e, result := 0#64 }

end Sys2Proof.Machine
end

