-- ==== Sys2Proof/Machine/Operands.lean ====
section
/-! DEFINITION. The operand forms: a binary64 pattern and its 48-bit value (40_pack.md R90 to R96), the six bytes and
the eight sextets of a 48-bit value, and their characters (20_memory.md R41, R42; 41_encode.md R121 to R124). -/

namespace Sys2Proof.Machine

/-- The sign bit `p[63]` (40_pack.md R90). -/
def signBit (p : F64) : Bool := p.extractLsb' 63 1 == 1#1

/-- The biased exponent `p[62:52]` (40_pack.md R90). -/
def biasedExponent (p : F64) : BitVec 11 := p.extractLsb' 52 11

/-- The fraction `p[51:0]` (40_pack.md R90). -/
def fraction (p : F64) : BitVec 52 := p.extractLsb' 0 52

/-- Every pattern but an infinity or a NaN (40_pack.md R91). -/
def isFinite (p : F64) : Bool := biasedExponent p != 0x7FF#11

/-- `m` of 40_pack.md R95: the fraction with its hidden bit, where there is one. -/
def significand (p : F64) : Nat :=
  if biasedExponent p = 0#11 then (fraction p).toNat else 2 ^ 52 + (fraction p).toNat

/-- `k` of 40_pack.md R95: the power of two the significand is scaled by. -/
def scale (p : F64) : Int := if biasedExponent p = 0#11 then -1074 else (biasedExponent p).toNat - 1075

/-- `val(p)`: the exact value of a finite pattern (40_pack.md R92). -/
def value (p : F64) : ℚ := (if signBit p then -1 else 1) * (significand p * 2 ^ scale p)

/-- `FloorInt(p)`: the floor of the exact value, worked out from the fields (40_pack.md R95). -/
def floorInt (p : F64) : Int :=
  if 0 ≤ scale p then
    let a : Int := (significand p <<< (scale p).toNat : Nat)
    if signBit p then -a else a
  else
    let q : Nat := significand p >>> (-scale p).toNat
    let r : Nat := significand p % 2 ^ (-scale p).toNat
    if signBit p then -((q + (if r ≠ 0 then 1 else 0) : Nat) : Int) else q

/-- `PackV(p)`: 0 for a non-finite pattern, else the floor modulo 2^48 (40_pack.md R96). -/
def packV (p : F64) : U48 := if isFinite p then BitVec.ofInt 48 (floorInt p) else 0

/-- `N(x)`: the normalization by the four steps of cwac, `none` standing for an input that is not finite
(40_pack.md R93). -/
def normalizedValue (x : Option ℚ) : Int :=
  let v := ⌊x.getD 0⌋
  let hi := v / 2 ^ 32
  let lo := v % 2 ^ 32
  let hi16 := hi % 2 ^ 16
  hi16 * 2 ^ 32 + lo

/-- The number a binary64 pattern carries, `none` for an infinity or a NaN (40_pack.md R91, R92). -/
def numberOf (p : F64) : Option ℚ := if isFinite p then some (value p) else none

/-- `B[k]` of a 48-bit value, byte 0 the most significant (20_memory.md R41). -/
def byteAt (v : U48) (k : Nat) : Byte := v.extractLsb' (40 - 8 * k) 8

/-- `S[i]` of a 48-bit value, sextet 0 the most significant (41_encode.md R122). -/
def sextetAt (v : U48) (i : Nat) : Sextet := v.extractLsb' (42 - 6 * i) 6

/-- The eight sextets of six bytes by the shifts and masks of cwac (41_encode.md R121). -/
def sextetsOfBytes (b0 b1 b2 b3 b4 b5 : Byte) : List Sextet :=
  [(b0 >>> 2).setWidth 6,
   (((b0 &&& 0x03) <<< 4) ||| (b1 >>> 4)).setWidth 6,
   (((b1 &&& 0x0F) <<< 2) ||| (b2 >>> 6)).setWidth 6,
   (b2 &&& 0x3F).setWidth 6,
   (b3 >>> 2).setWidth 6,
   (((b3 &&& 0x03) <<< 4) ||| (b4 >>> 4)).setWidth 6,
   (((b4 &&& 0x0F) <<< 2) ||| (b5 >>> 6)).setWidth 6,
   (b5 &&& 0x3F).setWidth 6]

/-- `C[i]`: the character of sextet `i`, read from the ROM (41_encode.md R123). -/
def charAt (rom : Vector Byte 64) (v : U48) (i : Nat) : Byte := alphabetAt rom (sextetAt v i)

/-- `Encode48(V)`: the eight characters, `C[0]` in `RESULT[63:56]` (41_encode.md R124, 20_memory.md R42). -/
def encode48 (rom : Vector Byte 64) (v : U48) : BitVec 64 :=
  charAt rom v 0 ++ charAt rom v 1 ++ charAt rom v 2 ++ charAt rom v 3 ++
  charAt rom v 4 ++ charAt rom v 5 ++ charAt rom v 6 ++ charAt rom v 7

/-- `RESULT[63-8i:56-8i]`, where character `i` stands (20_memory.md R42). -/
def resultByte (r : BitVec 64) (i : Nat) : Byte := r.extractLsb' (56 - 8 * i) 8

end Sys2Proof.Machine
end

