-- ==== Sys2Proof/Machine/Transaction.lean ====
section
/-! DEFINITION. `Exec`, the spec's own meaning of one command word as a total function (30_encoding.md R69, 10_state.md
R28). The step does not run commands through it: it decodes them and runs their meanings. Statements compare the two. -/

namespace Sys2Proof.Machine

/-- `Exec(cmd, now)`, transcribed case by case, the ROM an argument (30_encoding.md R69). -/
def execWord (rom : Vector Byte 64) (cmd : Cmd) (now : F64) : Response :=
  let len := lenField cmd
  let opd := operandField cmd
  if opField cmd = 0x1#4 then
    if len ≠ 0#4 then errorResponse .illegalCommand
    else okResponse ((packV opd).setWidth 64)
  else if opField cmd = 0x2#4 then
    if opd.extractLsb' 48 16 ≠ 0#16 then errorResponse .illegalCommand
    else if len ≠ 6#4 then errorResponse .invalidLength
    else okResponse (encode48 rom (opd.extractLsb' 0 48))
  else if opField cmd = 0x3#4 then
    if len ≠ 0#4 then errorResponse .illegalCommand
    else okResponse (encode48 rom (packV opd))
  else if opField cmd = 0x4#4 then
    if len ≠ 0#4 ∨ opd ≠ 0#64 then errorResponse .illegalCommand
    else okResponse (encode48 rom (packV now))
  else errorResponse .illegalCommand

/-- The words whose command samples `NOW_MS`: the legal GEN_NOW word (30_encoding.md R69, 42_generate.md R151). -/
def samplesNow (cmd : Cmd) : Bool := opField cmd == 0x4#4 && lenField cmd == 0#4 && operandField cmd == 0#64

/-- What the block holds of a command accepted while `now` could be sampled (10_state.md R30). -/
def acceptedOf (cmd : Cmd) (now : F64) : Accepted :=
  { cmd := cmd, sample := if samplesNow cmd then some now else none }

/-- The response of an accepted command: `Exec` on its own word and its own sample (10_state.md R28). A command with no
sample reads none, so the value that stands in for it is not used. -/
def answerTo (rom : Vector Byte 64) (a : Accepted) : Response := execWord rom a.cmd (a.sample.getD 0)

end Sys2Proof.Machine
end

