-- ==== Sys2Proof/Machine/Ops.lean ====
section
/-! DEFINITION. The named operations of the block: sampling the clock, delivering a response, raising an error, the
handshake of one edge, and the reset edge. There is no memory and there are no registers to operate on (20_memory.md
R40, 10_state.md R20), and no trap to take or to return from (60_exceptions.md R177, R178): `raise` is the whole effect
of an error. -/

namespace Sys2Proof.Machine

/-- `SampleNow()`: the level of `NOW_MS` at the acceptance edge, as it is (42_generate.md R152); a free value when the
host lets it change on that edge (70_reset_and_hazards.md R206). -/
def sampleNow (s : State) : F64 := if s.pins.nowHeld then s.pins.nowMs else Config.unheldNow s.tick

/-- `respond(status, result)` for an accepted command: it joins the outstanding set behind the others with its response
(00_scope.md R11, 20_memory.md R49, 10_state.md R30). -/
def respond (a : Accepted) (r : Response) (s : State) : State :=
  { s with
    outstanding := s.outstanding ++ [{ entry := a, rsp := r, age := 0 }]
    record := { s.record with accepted := s.record.accepted ++ [a] } }

/-- `raise E`: the response `(code(E), 0)`, and nothing else (60_exceptions.md R170). The command has sampled nothing. -/
def raise (e : ErrorKind) (cmd : Cmd) (s : State) : State :=
  respond { cmd := cmd, sample := none } (errorResponse e) s

/-- Is the oldest outstanding command's response due: has it been held for `LATENCY` edges
(70_reset_and_hazards.md R207)? After back-pressure, where R208 gives only some bound, it is due as soon as it is the oldest
and its own `LATENCY` edges are over. DESIGN CHOICE, log entry 23. -/
def isDue (s : State) (p : Pending) : Bool := decide (s.params.latency ≤ p.age)

/-- Can the outstanding set take one more command at this edge (00_scope.md R8, 10_state.md R30)? A full set can when
its oldest response is taken at the same edge. DESIGN CHOICE, log entry 5. -/
def hasRoom (s : State) : Bool :=
  match s.outstanding with
  | [] => true
  | p :: rest => decide (rest.length + 1 < s.params.maxOutstanding) || (isDue s p && s.pins.rspReady)

/-- `CMD_READY` at this edge (10_state.md R27): room, no stall left, and at `LATENCY = 0` the level of `RSP_READY`
(70_reset_and_hazards.md R207). So there it stays 0 as long as the host is not ready, where R201 has it rise within finitely
many cycles: DESIGN CHOICE, log entry 25. -/
def cmdReady (s : State) : Bool := s.stall == 0 && (s.pins.rspReady || s.params.latency != 0) && hasRoom s

/-- What a rising edge of `CLK` is for the block. -/
inductive EdgeKind where
  /-- `RST = 1` (70_reset_and_hazards.md R200). -/
  | reset
  /-- No reset edge has happened yet (70_reset_and_hazards.md R202). -/
  | powerUp
  /-- `CMD_VALID` and `CMD_READY` are both 1: a command is accepted (10_state.md R27). -/
  | accept
  /-- No command is accepted. -/
  | idle
deriving DecidableEq, Repr

/-- The kind of the coming edge (10_state.md R27; 70_reset_and_hazards.md R200, R202). -/
def edgeKind (s : State) : EdgeKind :=
  if s.pins.rst then .reset
  else if s.phase = .beforeReset then .powerUp
  else if s.pins.cmdValid && cmdReady s then .accept
  else .idle

/-- The response on the response port at this edge, if `RSP_VALID` is 1: the oldest outstanding one when it is due
(70_reset_and_hazards.md R207, 20_memory.md R49); at `LATENCY = 0` and nothing outstanding, that of the command
presented, accepted or not (R207: `RSP_VALID = CMD_VALID`; DEDUCED, log entry 6). So there a GEN_NOW that waits for
`RSP_READY` shows `Exec` on the clock of each edge, where R206 has a shown response held, and where 10_state.md R27 and
42_generate.md R152 have `NOW_MS` read only at acceptance: DESIGN CHOICE, log entry 21. And
`RSP_VALID` rises with `CMD_VALID` before the first acceptance after reset, where R201 keeps it at 0 until then: DESIGN
CHOICE, log entry 22. -/
def shown (s : State) : Option Response :=
  match s.outstanding with
  | p :: _ => if isDue s p then some p.rsp else none
  | [] =>
    if s.params.latency = 0 ∧ s.pins.cmdValid then some (execWord s.alphabet s.pins.cmd (sampleNow s)) else none

/-- The output ports for a given `CMD_READY` and response (10_state.md R27). Without a response the two response buses
are free values (70_reset_and_hazards.md R201). -/
def outputs (tick : Nat) (ready : Bool) (r : Option Response) : OutputPorts :=
  match r with
  | some r => { cmdReady := ready, rspValid := true, rspStatus := r.status, rspResult := r.result }
  | none =>
    { cmdReady := ready, rspValid := false, rspStatus := Config.freeStatus tick, rspResult := Config.freeResult tick }

/-- The host takes the oldest response if it is due and `RSP_READY` is 1 (10_state.md R27, 20_memory.md R49). -/
def takeOldest (s : State) : State :=
  match s.outstanding with
  | p :: rest =>
    if isDue s p && s.pins.rspReady then
      { s with outstanding := rest, record := { s.record with taken := s.record.taken ++ [p.rsp] } }
    else s
  | [] => s

/-- One more edge since a command was accepted. -/
def Pending.older (p : Pending) : Pending := { p with age := p.age + 1 }

/-- How long `CMD_READY` is held low after this edge, if the block starts to hold it (70_reset_and_hazards.md R201). At
`LATENCY = 0` it is `RSP_READY` and never held (R207). -/
def drawStall (s : State) : Nat := if s.params.latency = 0 then 0 else Config.readyDelay s.tick

/-- The host's levels for the next edge, and one more edge counted. -/
def nextEdge (s : State) : State :=
  { s with pins := s.script.headD .idle, script := s.script.tail, tick := s.tick + 1 }

/-- Does the block hold a response with the reserved status 3 (60_exceptions.md R171)? -/
def nonconforming (s : State) : Bool := s.outstanding.any fun p => p.rsp.status == 3#2

/-- The end of an edge with `RST = 0`, once a command that is accepted at it has joined the outstanding set: the response
port shows the oldest response if it is due, the host takes it if it is ready, and time goes on. `ready` is the level of
`CMD_READY` at this edge, `accepted` whether a command was accepted. -/
def settle (ready accepted : Bool) (s : State) : State :=
  let t := takeOldest s
  nextEdge
    { t with
      out := outputs s.tick ready (shown s)
      outstanding := t.outstanding.map Pending.older
      stall := if accepted then drawStall s else s.stall - 1 }

/-- `settle`, but a block that holds a response with status 3 does not conform (93_implementation_defined.md I5). -/
def closeEdge (ready accepted : Bool) (s : State) : Host.Outcome State Fault Refusal :=
  if nonconforming s then .fault .nonconformingStatus else .next (settle ready accepted s)

/-- What a step adds around the meaning of the command it accepts: the rest of the edge. -/
def closeAccept (o : Host.Outcome State Fault Refusal) : Host.Outcome State Fault Refusal :=
  match o with
  | .next t => closeEdge true true t
  | .fault r => .fault r
  | .refused r => .refused r

/-- An edge with `RST = 1`: nothing accepted, nothing taken, the outstanding set discarded, and the levels of the reset
state (70_reset_and_hazards.md R200, R201). The record starts afresh (20_memory.md R49). -/
def resetEdge (s : State) : State :=
  nextEdge
    { s with
      outstanding := []
      out := outputs s.tick (Config.freeReady s.tick) none
      record := .empty
      phase := .operating
      stall := drawStall s }

/-- An edge before the first reset: a command presented has no meaning; otherwise the output ports carry any value
(70_reset_and_hazards.md R202, 93_implementation_defined.md I8). -/
def powerUpEdge (s : State) : Host.Outcome State Fault Refusal :=
  if s.pins.cmdValid then .refused .beforeFirstReset
  else
    .next
      (nextEdge
        { s with
          out :=
            { cmdReady := Config.freeReady s.tick, rspValid := Config.freeValid s.tick,
              rspStatus := Config.freeStatus s.tick, rspResult := Config.freeResult s.tick } })

/-- The host presents a command word on `CMD` at the coming edge, with the ports set so that it is accepted at it; a
block that could not take it is first emptied as a reset would (log entry 14). -/
def presentWord (cmd : Cmd) (s : State) : State :=
  let t : State :=
    { s with pins := { s.pins with rst := false, cmdValid := true, cmd := cmd, rspReady := true }, stall := 0 }
  if t.phase == .operating && hasRoom t && !nonconforming t then t
  else { t with phase := .operating, outstanding := [], record := .empty }

end Sys2Proof.Machine
end

