-- ==== Sys2Proof/Machine/Encode.lean ====
section
/-! DEFINITION. The encoder family: ENCODE (41_encode.md R125). -/

namespace Sys2Proof.Machine

/-- ENCODE: `IllegalCommand` when `OPERAND[63:48]` is not zero, else `InvalidLength` when `LEN` is not 6, else
`RESULT = Encode48(OPERAND[47:0])` (41_encode.md R125; the order of the checks 60_exceptions.md R174). -/
def execEncode (len : BitVec 4) (operandHi : BitVec 16) (bytes : U48) (s : State) :
    Host.Outcome State Fault Refusal :=
  let cmd := encode (.encode len operandHi bytes)
  if operandHi ≠ 0#16 then .next (raise .illegalCommand cmd s)
  else if len ≠ 6#4 then .next (raise .invalidLength cmd s)
  else .next (respond { cmd := cmd, sample := none } (okResponse (encode48 s.alphabet bytes)) s)

end Sys2Proof.Machine
end

