-- ==== Sys2Proof/Machine/Generate.lean ====
section
/-! DEFINITION. The generate family: GEN (42_generate.md R150) and GEN_NOW (R151). -/

namespace Sys2Proof.Machine

/-- GEN: `IllegalCommand` when `LEN` is not zero, else `RESULT = Encode48(PackV(OPERAND))` (42_generate.md R150). -/
def execGen (len : BitVec 4) (operand : F64) (s : State) : Host.Outcome State Fault Refusal :=
  let cmd := encode (.gen len operand)
  if len ≠ 0#4 then .next (raise .illegalCommand cmd s)
  else .next (respond { cmd := cmd, sample := none } (okResponse (encode48 s.alphabet (packV operand))) s)

/-- GEN_NOW: `IllegalCommand` when `LEN` or `OPERAND` is not zero, and then no sample is taken; else
`RESULT = Encode48(PackV(t))` for the one sample `t` of `NOW_MS` (42_generate.md R151, R152). -/
def execGenNow (len : BitVec 4) (operand : BitVec 64) (s : State) : Host.Outcome State Fault Refusal :=
  let cmd := encode (.genNow len operand)
  if len ≠ 0#4 ∨ operand ≠ 0#64 then .next (raise .illegalCommand cmd s)
  else
    let t := sampleNow s
    .next (respond { cmd := cmd, sample := some t } (okResponse (encode48 s.alphabet (packV t))) s)

end Sys2Proof.Machine
end

