-- ==== Sys2Proof/Machine/Pack.lean ====
section
/-! DEFINITION. The packer family: PACK (40_pack.md R97). -/

namespace Sys2Proof.Machine

/-- PACK: `IllegalCommand` when `LEN` is not zero, else `RESULT = zext_64(PackV(OPERAND))` (40_pack.md R97). -/
def execPack (len : BitVec 4) (operand : F64) (s : State) : Host.Outcome State Fault Refusal :=
  let cmd := encode (.pack len operand)
  if len ≠ 0#4 then .next (raise .illegalCommand cmd s)
  else .next (respond { cmd := cmd, sample := none } (okResponse ((packV operand).setWidth 64)) s)

end Sys2Proof.Machine
end

