-- ==== Sys2Proof/Machine/Dispatch.lean ====
section
/-! DEFINITION. Which meaning each command has. -/

namespace Sys2Proof.Machine

def exec (i : Instr) (s : State) : Host.Outcome State Fault Refusal :=
  match i with
  | .pack len operand => Sys2Proof.Machine.execPack len operand s
  | .encode len operandHi bytes => Sys2Proof.Machine.execEncode len operandHi bytes s
  | .gen len operand => Sys2Proof.Machine.execGen len operand s
  | .genNow len operand => Sys2Proof.Machine.execGenNow len operand s

end Sys2Proof.Machine
end

