-- ==== Sys2Proof/Machine/Step.lean ====
section
/-! DEFINITION. One step: one rising edge of `CLK` (10_state.md R27, 20_memory.md R46). -/

namespace Sys2Proof.Machine

/-- The command accepted at an edge: the word on `CMD` is decoded and its meaning run; a word with no meaning raises
`IllegalCommand` (60_exceptions.md R173). -/
def runCommand (s : State) : Host.Outcome State Fault Refusal :=
  match decode s.pins.cmd with
  | .instr i => exec i s
  | .illegal _ => .next (raise .illegalCommand s.pins.cmd s)

/-- One rising edge of `CLK` (10_state.md R27; 70_reset_and_hazards.md R200, R202). -/
def step (s : State) : Host.Outcome State Fault Refusal :=
  match edgeKind s with
  | .reset => .next (resetEdge s)
  | .powerUp => powerUpEdge s
  | .idle => closeEdge (cmdReady s) false s
  | .accept => closeAccept (runCommand s)

/-- The state with a command word on the command port, so that the next step accepts and runs it (log entry 14). -/
def State.withFetchWord (s : State) (nbits w : Nat) : State := presentWord (BitVec.ofNat 72 (w % 2 ^ nbits)) s

end Sys2Proof.Machine
end

