-- ==== Sys2Proof/Machine/Assembler.lean ====
section
/-! DEFINITION. The assembler syntax and the pseudo-instructions (30_encoding.md R71, R72): the lines, the word each
stands for, the disassembler, and both directions of the text. Log entry 18 names what R71 leaves open. -/

namespace Sys2Proof.Machine

/-- A binary64 operand as a line writes it (30_encoding.md R71). A decimal literal is `num / den`, with its sign apart. -/
inductive F64Literal where
  | raw (p : F64)
  | inf
  | negInf
  | nan
  | decimal (negative : Bool) (num den : Nat)
deriving DecidableEq, Repr

/-- One line of assembly: the four commands, the directive and the pseudo-instructions (30_encoding.md R71, R72). -/
inductive AsmLine where
  | pack (x : F64Literal)
  | encode (len : BitVec 4) (bytes : U48)
  | gen (x : F64Literal)
  | genNow
  | word72 (w : Cmd)
  | packi (n : Int)
  | geni (n : Int)
  | encode6 (bytes : U48)
deriving DecidableEq, Repr

/-- The quotient rounded to the nearest integer, ties to even (30_encoding.md R71). -/
def roundHalfEven (num den : Nat) : Nat :=
  let q := num / den
  let r := num % den
  if 2 * r < den then q else if den < 2 * r then q + 1 else q + q % 2

/-- The floor of the base-2 logarithm of a positive quotient. -/
def quotientLog2 (num den : Nat) : Int :=
  let guess : Int := num.log2 - den.log2
  let reached : Bool := if 0 ≤ guess then decide (den * 2 ^ guess.toNat ≤ num) else decide (den ≤ num * 2 ^ (-guess).toNat)
  if reached then guess else guess - 1

/-- The pattern of the nearest binary64 to a quotient, ties to even, without its sign bit (30_encoding.md R71). The unit
in the last place is 2^-1074 or the 53rd bit; a significand that rounds up to the next power of two carries into the
exponent; a value past the largest finite one gives the infinity. -/
def nearestMagnitude (num den : Nat) : Nat :=
  if num = 0 ∨ den = 0 then 0
  else
    let e := max (quotientLog2 num den - 52) (-1074)
    let m := if 0 ≤ e then roundHalfEven num (den * 2 ^ e.toNat) else roundHalfEven (num * 2 ^ (-e).toNat) den
    min ((e + 1074).toNat * 2 ^ 52 + m) (0x7FF * 2 ^ 52)

/-- The binary64 pattern of a literal (30_encoding.md R71). -/
def F64Literal.pattern : F64Literal → F64
  | .raw p => p
  | .inf => 0x7FF0000000000000
  | .negInf => 0xFFF0000000000000
  | .nan => 0x7FF8000000000000
  | .decimal negative num den => BitVec.ofNat 64 ((if negative then 2 ^ 63 else 0) + nearestMagnitude num den)

/-- The binary64 pattern of an integer that binary64 holds exactly; the assembler refuses any other
(30_encoding.md R72). -/
def exactInteger (n : Int) : Option F64 :=
  if n.natAbs ≤ 2 ^ 53 then some (F64Literal.decimal (decide (n < 0)) n.natAbs 1).pattern else none

/-- The command word of a line, none where the assembler refuses it (30_encoding.md R71, R72). -/
def assemble : AsmLine → Option Cmd
  | .pack x => some (encode (.pack 0 x.pattern))
  | .encode len bytes => some (encode (.encode len 0 bytes))
  | .gen x => some (encode (.gen 0 x.pattern))
  | .genNow => some (encode (.genNow 0 0))
  | .word72 w => some w
  | .packi n => (exactInteger n).map fun p => encode (.pack 0 p)
  | .geni n => (exactInteger n).map fun p => encode (.gen 0 p)
  | .encode6 bytes => some (encode (.encode 6 0 bytes))

/-- The line of a word: its mnemonic if it is one of the four commands, else the directive (30_encoding.md R71). -/
def disassemble (w : Cmd) : AsmLine :=
  match decode w with
  | .instr (.pack _ operand) => .pack (.raw operand)
  | .instr (.encode len _ bytes) => .encode len bytes
  | .instr (.gen _ operand) => .gen (.raw operand)
  | .instr (.genNow _ _) => .genNow
  | .illegal _ => .word72 w

/-- A hexadecimal digit as a character. -/
def hexDigit (d : Nat) : Char := if d < 10 then Char.ofNat (0x30 + d) else Char.ofNat (0x41 + d - 10)

/-- The last `n` hexadecimal digits of a number, most significant first. -/
def hexDigits : Nat → Nat → List Char
  | 0, _ => []
  | n + 1, v => hexDigits n (v / 16) ++ [hexDigit (v % 16)]

/-- The decimal digits of a number below 100. -/
def twoDecimals (n : Nat) : List Char :=
  (if n < 10 then [] else [Char.ofNat (0x30 + n / 10)]) ++ [Char.ofNat (0x30 + n % 10)]

/-- The text of a line the disassembler prints (30_encoding.md R71); the pseudo-instructions and the literals with a name
or a decimal point are only read, never printed. -/
def disassembleText (w : Cmd) : List Char :=
  match disassemble w with
  | .pack x => "PACK raw:0x".toList ++ hexDigits 16 x.pattern.toNat
  | .encode len bytes => "ENCODE ".toList ++ twoDecimals len.toNat ++ ", 0x".toList ++ hexDigits 12 bytes.toNat
  | .gen x => "GEN raw:0x".toList ++ hexDigits 16 x.pattern.toNat
  | .genNow => "GEN_NOW".toList
  | _ => ".word72 0x".toList ++ hexDigits 18 w.toNat

/-- The value of a digit character in a base up to 16. -/
def digitValue (base : Nat) (c : Char) : Option Nat :=
  let n := c.toNat
  let d := if 0x30 ≤ n ∧ n ≤ 0x39 then n - 0x30
    else if 0x41 ≤ n ∧ n ≤ 0x46 then n - 0x41 + 10
    else if 0x61 ≤ n ∧ n ≤ 0x66 then n - 0x61 + 10
    else 16
  if d < base then some d else none

/-- The number a digit string spells, on top of what was read before it. -/
def readDigits (base : Nat) : List Char → Nat → Option Nat
  | [], acc => some acc
  | c :: cs, acc => (digitValue base c).bind fun d => readDigits base cs (acc * base + d)

/-- A number of one or more digits. -/
def readNumber (base : Nat) (cs : List Char) : Option Nat := if cs = [] then none else readDigits base cs 0

/-- `0x` and between `least` and `most` hexadecimal digits. -/
def readHex (least most : Nat) : List Char → Option Nat
  | '0' :: 'x' :: cs => if least ≤ cs.length ∧ cs.length ≤ most then readNumber 16 cs else none
  | _ => none

/-- A decimal integer with an optional minus sign. -/
def readInt : List Char → Option Int
  | '-' :: cs => (readNumber 10 cs).map fun n => -n
  | cs => (readNumber 10 cs).map fun n => n

/-- The part before a character and the part after it, if it occurs. -/
def splitAtChar (sep : Char) : List Char → List Char × Option (List Char)
  | [] => ([], none)
  | c :: cs => if c = sep then ([], some cs) else ((c :: (splitAtChar sep cs).1), (splitAtChar sep cs).2)

/-- A decimal literal without its sign: digits, an optional fraction, an optional power of ten. -/
def readDecimal (negative : Bool) (cs : List Char) : Option F64Literal :=
  let (mantissa, exponent) := splitAtChar 'e' cs
  let (whole, tail) := splitAtChar '.' mantissa
  (readNumber 10 whole).bind fun w =>
    (match tail with | none => some w | some f => readDigits 10 f w).bind fun n =>
      (match exponent with | none => some 0 | some e => readInt e).bind fun x =>
        some (.decimal negative (n * 10 ^ x.toNat) (10 ^ ((tail.getD []).length + (-x).toNat)))

/-- A binary64 operand (30_encoding.md R71). -/
def readF64 (cs : List Char) : Option F64Literal :=
  if cs = "inf".toList then some .inf
  else if cs = "-inf".toList then some .negInf
  else if cs = "nan".toList then some .nan
  else
    match cs with
    | 'r' :: 'a' :: 'w' :: ':' :: hex => (readHex 16 16 hex).map fun p => .raw (BitVec.ofNat 64 p)
    | '-' :: rest => readDecimal true rest
    | _ => readDecimal false cs

/-- The tokens of a line up to its comment: blanks part them, a comma is a token of its own. `word` holds the token being
read, last character first. -/
def tokens : List Char → List Char → List (List Char)
  | [], word => if word = [] then [] else [word.reverse]
  | c :: cs, word =>
    let before := if word = [] then [] else [word.reverse]
    if c = ';' then before
    else if c = ' ' ∨ c = '\t' then before ++ tokens cs []
    else if c = ',' then before ++ [','] :: tokens cs []
    else tokens cs (c :: word)

/-- The line a text stands for, none where it is no line of the syntax (30_encoding.md R71, R72). A text with no command,
blank or only a comment, stands for no line either and is answered as a refused one is. DESIGN CHOICE, log entry 24. -/
def readLine (text : List Char) : Option AsmLine :=
  match tokens text [] with
  | [op] => if op = "GEN_NOW".toList then some .genNow else none
  | [op, a] =>
    if op = "PACK".toList then (readF64 a).map .pack
    else if op = "GEN".toList then (readF64 a).map .gen
    else if op = ".word72".toList then (readHex 18 18 a).map fun w => .word72 (BitVec.ofNat 72 w)
    else if op = "PACKI".toList then (readInt a).map .packi
    else if op = "GENI".toList then (readInt a).map .geni
    else if op = "ENCODE6".toList then (readHex 1 12 a).map fun v => .encode6 (BitVec.ofNat 48 v)
    else none
  | [op, a, comma, b] =>
    if op = "ENCODE".toList ∧ comma = [','] then
      (readNumber 10 a).bind fun len =>
        if len ≤ 15 then (readHex 1 12 b).map fun v => .encode (BitVec.ofNat 4 len) (BitVec.ofNat 48 v) else none
    else none
  | _ => none

end Sys2Proof.Machine
end

