-- ==== Sys2Proof/Machine/Oracle.lean ====
section
/-! DEFINITION. What the spec defines only to test the block by: the index of a character code, `Decode48` (41_encode.md
R128, R130), and standard Base64URL over any bytes (R127). No command computes them. -/

namespace Sys2Proof.Machine

/-- `idx(c)`: the alphabet index of a character code, none for a code that is no entry (41_encode.md R128, R130). -/
def indexOf (c : Byte) : Option Sextet :=
  ((List.range 64).map fun k => BitVec.ofNat 6 k).find? fun i => alphabetAt alphabetTable i == c

/-- The eight character codes of a result, `C[0]` first (20_memory.md R42). -/
def resultChars (r : BitVec 64) : List Byte := (List.range 8).map (resultByte r)

/-- The index string of a result: the alphabet indices of its characters as numbers (41_encode.md R128). -/
def indexString (r : BitVec 64) : List Nat := (resultChars r).map fun c => ((indexOf c).map BitVec.toNat).getD 64

/-- Lexicographic order of index strings (41_encode.md R128). -/
def lexLess : List Nat → List Nat → Bool
  | [], [] => false
  | [], _ :: _ => true
  | _ :: _, [] => false
  | a :: as, b :: bs => decide (a < b) || (decide (a = b) && lexLess as bs)

/-- The value a list of sextets spells in base 64, the first the most significant. -/
def sextetsValue : List Sextet → Nat → Nat
  | [], acc => acc
  | d :: ds, acc => sextetsValue ds (acc * 64 + d.toNat)

/-- `Decode48(R)`, none where a byte of the word is no alphabet code (41_encode.md R130). -/
def decode48 (r : BitVec 64) : Option U48 :=
  ((resultChars r).mapM indexOf).map fun ds => BitVec.ofNat 48 (sextetsValue ds 0)

/-- Standard Base64 of bytes in groups of three, with the URL-safe alphabet and no padding (41_encode.md R127, from
RFC 4648 section 5): 24 bits give four characters, a last group of 16 or 8 bits is filled with zeros on the right and
gives three or two. -/
def base64url : List Byte → List Byte
  | [] => []
  | [a] =>
    let g : BitVec 12 := a ++ 0#4
    [alphabetAt alphabetTable (g.extractLsb' 6 6), alphabetAt alphabetTable (g.extractLsb' 0 6)]
  | [a, b] =>
    let g : BitVec 18 := a ++ b ++ 0#2
    [alphabetAt alphabetTable (g.extractLsb' 12 6), alphabetAt alphabetTable (g.extractLsb' 6 6),
     alphabetAt alphabetTable (g.extractLsb' 0 6)]
  | a :: b :: c :: rest =>
    let g : BitVec 24 := a ++ b ++ c
    alphabetAt alphabetTable (g.extractLsb' 18 6) :: alphabetAt alphabetTable (g.extractLsb' 12 6) ::
    alphabetAt alphabetTable (g.extractLsb' 6 6) :: alphabetAt alphabetTable (g.extractLsb' 0 6) :: base64url rest

/-- The six bytes of a 48-bit value, byte 0 first (20_memory.md R41). -/
def bytesOf (v : U48) : List Byte := (List.range 6).map (byteAt v)

end Sys2Proof.Machine
end

