-- ==== Sys2Proof/Machine/Runs.lean ====
section
/-! DEFINITION. Runs: one block for several edges, and several blocks side by side, each with its own ports and sharing
nothing with the others (60_exceptions.md R182). -/

namespace Sys2Proof.Machine

/-- `n` edges of one block, up to the first that stops it. -/
def runEdges : Nat → State → Host.Outcome State Fault Refusal
  | 0, s => .next s
  | n + 1, s =>
    match step s with
    | .next t => runEdges n t
    | .fault r => .fault r
    | .refused r => .refused r

/-- One edge of one block; a block whose step stops stays as it is. -/
def advance (s : State) : State :=
  match step s with
  | .next t => t
  | .fault _ => s
  | .refused _ => s

/-- `n` edges of one block. -/
def advanceMany : Nat → State → State
  | 0, s => s
  | n + 1, s => advanceMany n (advance s)

/-- One edge of the block numbered `k`, every other block as it was. -/
def advanceAt (blocks : List State) (k : Nat) : List State := blocks.modify k advance

/-- The edges of several blocks in any interleaving: the schedule names the block of each edge. -/
def runSchedule (blocks : List State) : List Nat → List State
  | [] => blocks
  | k :: later => runSchedule (advanceAt blocks k) later

end Sys2Proof.Machine
end

