-- ==== Sys2Proof/Safety.lean ====
section
/-! DEFINITION. What counts as a safe run, in the terms the statements use: the invariant of the machine, what the host
keeps to, the illegal words, and the newest answer of an outcome. -/

namespace Sys2Proof.Machine

/-- The ROM holds its fixed contents (10_state.md R22, R23). -/
abbrev RomIntact (s : State) : Prop := s.alphabet = alphabetTable

/-- The open parameters are in their ranges (00_scope.md R8; 70_reset_and_hazards.md R207 for `LATENCY = 0`). -/
abbrev ParamsInRange (p : Params) : Prop := 1 ≤ p.maxOutstanding ∧ (p.latency = 0 → p.maxOutstanding = 1)

/-- Every outstanding command holds the response `Exec` gives its own word and its own sample (10_state.md R28, R30). -/
abbrev AnswersFaithful (s : State) : Prop := ∀ p ∈ s.outstanding, p.rsp = answerTo alphabetTable p.entry

/-- The outstanding commands were accepted at different edges before the coming one, the oldest first (10_state.md R27,
20_memory.md R49). -/
abbrev AgesOrdered (s : State) : Prop :=
  s.outstanding.Pairwise (fun p q => q.age < p.age) ∧ ∀ p ∈ s.outstanding, 1 ≤ p.age

/-- The record and the outstanding set agree: the commands accepted since the last reset are those answered, whose
responses were taken in that order, and then those outstanding (20_memory.md R49). -/
abbrev InOrder (s : State) : Prop :=
  s.record.accepted.drop s.record.taken.length = s.outstanding.map Pending.entry ∧
  s.record.taken = (s.record.accepted.take s.record.taken.length).map (answerTo alphabetTable)

/-- A sample is held for the legal GEN_NOW words and for no other (42_generate.md R152, 30_encoding.md R69). -/
abbrev SamplesRight (s : State) : Prop := ∀ a ∈ s.record.accepted, a.sample.isSome = samplesNow a.cmd

/-- The invariant of the machine. -/
structure MachineInv (s : State) : Prop where
  rom : RomIntact s
  params : ParamsInRange s.params
  /-- At most `MAX_OUTSTANDING` commands are outstanding (10_state.md R30). -/
  capacity : s.outstanding.length ≤ s.params.maxOutstanding
  faithful : AnswersFaithful s
  ages : AgesOrdered s
  /-- At `LATENCY = 0` a command is answered at the edge that accepts it, and `CMD_READY` is never held low
  (70_reset_and_hazards.md R207). -/
  combinational : s.params.latency = 0 → s.outstanding = [] ∧ s.stall = 0
  inOrder : InOrder s
  samples : SamplesRight s

/-- The host holds `RST` at 0 at the coming edge and every later one. -/
abbrev NoResetAhead (s : State) : Prop := ∀ p ∈ s.pins :: s.script, p.rst = false

/-- The obligations of the host between one edge and the next (70_reset_and_hazards.md R206): a command that is presented
and not accepted stays on the port, and the clock is held across the edge that accepts a GEN_NOW. That a reset edge ends
the first one, for which R206 names no exception, is the model's. DESIGN CHOICE, log entry 26. -/
abbrev HostObeys (s t : State) : Prop :=
  (s.pins.cmdValid = true → edgeKind s = .idle → t.pins.cmdValid = true ∧ t.pins.cmd = s.pins.cmd) ∧
  (edgeKind s = .accept → samplesNow s.pins.cmd = true → s.pins.nowHeld = true)

/-- The illegal command words, item by item (30_encoding.md R65). -/
abbrev IllegalSet (w : Cmd) : Prop :=
  (w.extractLsb' 68 4 = 0x0#4 ∨ 0x5#4 ≤ w.extractLsb' 68 4) ∨
  ((w.extractLsb' 68 4 = 0x1#4 ∨ w.extractLsb' 68 4 = 0x3#4) ∧ w.extractLsb' 64 4 ≠ 0#4) ∨
  (w.extractLsb' 68 4 = 0x2#4 ∧ w.extractLsb' 48 16 ≠ 0#16) ∨
  (w.extractLsb' 68 4 = 0x4#4 ∧ (w.extractLsb' 64 4 ≠ 0#4 ∨ w.extractLsb' 0 64 ≠ 0#64))

/-- The newest outstanding command of an outcome and its response: after a meaning, the command just run. -/
def newest (o : Host.Outcome State Fault Refusal) : Option (Accepted × Response) :=
  match o with
  | .next t => t.outstanding.getLast?.map fun p => (p.entry, p.rsp)
  | .fault _ => none
  | .refused _ => none

/-- The responses given since the last reset, in acceptance order: those taken, then those still held. -/
def answers (s : State) : List Response := s.record.taken ++ s.outstanding.map Pending.rsp

end Sys2Proof.Machine
end

