-- ==== Sys2Proof/Certificates/Slice0/Obligations.lean ====
section
/-! DEFINITION. The statements for the provers. Each docstring names the rule or the section of the spec it formalises. -/

open Sys2Proof Sys2Proof.Machine

/-! ## Encoding -/

/-- Decode and encode agree on every well-formed command, with every operand at every value: no field of 30_encoding.md
section 1 is dropped. -/
def Obligations.DecodeOfEncodeIsTheCommand : Prop :=
  ∀ i : Instr, i.wellFormed = true → decode (encode i) = .instr i

/-- Every word the decoder accepts is the word of the command it gives, so a word has one meaning and no reserved bit
is ignored (30_encoding.md sections 1 and 2). -/
def Obligations.EncodeOfDecodeIsTheWord : Prop :=
  ∀ (w : Cmd) (i : Instr), decode w = .instr i → encode i = w ∧ i.wellFormed = true

/-- The decoder refuses exactly the words of the list 30_encoding.md section 2 derives in its rule 65. -/
def Obligations.DecoderRefusesTheIllegalSet : Prop :=
  ∀ w : Cmd, (∃ why, decode w = .illegal why) ↔ IllegalSet w

/-- The decoder and the rows of the opcode table agree: a word is a row's command when its bits under the mask are the
row's, no word is two rows' command, and a word of no row is illegal (30_encoding.md section 7, which derives it). -/
def Obligations.DecoderAgreesWithOpcodeTable : Prop :=
  ∀ w : Cmd,
    (∀ r ∈ tableRows, r.covers w = true ↔ ∃ i, decode w = .instr i ∧ mnemonicOf i = r.mnemonic) ∧
    (∀ r₁ ∈ tableRows, ∀ r₂ ∈ tableRows, r₁.covers w = true → r₂.covers w = true → r₁ = r₂) ∧
    ((∀ r ∈ tableRows, r.covers w = false) → ∃ why, decode w = .illegal why)

/-- The example words of 30_encoding.md section 6 decode to the commands they stand for. -/
def Obligations.ExampleWordsDecode : Prop :=
  decode 0x103FF0000000000000 = .instr (.pack 0 0x3FF0000000000000) ∧
  decode 0x100000000000000000 = .instr (.pack 0 0) ∧
  decode 0x2600000123456789AB = .instr (.encode 6 0 0x0123456789AB) ∧
  decode 0x2500000123456789AB = .instr (.encode 5 0 0x0123456789AB) ∧
  decode 0x300000000000000000 = .instr (.gen 0 0) ∧
  decode 0x303FF0000000000000 = .instr (.gen 0 0x3FF0000000000000) ∧
  decode 0x400000000000000000 = .instr (.genNow 0 0) ∧
  decode 0x500000000000000000 = .illegal (.opcode 5)

/-- A step runs the decoded command: at an edge with `RST = 0`, `CMD_VALID = 1` and `CMD_READY = 1` whose word decodes to
a command, the step is the command's meaning and then the rest of the edge (10_state.md section 4, 30_encoding.md
section 4). What the step adds is `settle`; or, if the block holds a response with status 3, the fault
`nonconformingStatus`, which is the model's choice (log entry 16) after 93_implementation_defined.md section 1, I5: "a
block producing it does not conform". -/
def Obligations.StepRunsTheDecodedCommand : Prop :=
  ∀ (s : State) (i : Instr), s.pins.rst = false → s.phase = .operating → s.pins.cmdValid = true → cmdReady s = true →
    decode s.pins.cmd = .instr i →
    step s = closeAccept (exec i s) ∧
    ∀ t, exec i s = .next t →
      step s = if nonconforming t then .fault .nonconformingStatus else .next (settle true true t)

/-- A word put where the step fetches is the command the very next step runs, and that step answers a next state. The
model's own operation (log entry 14). -/
def Obligations.FetchedWordIsRunNext : Prop :=
  ∀ (s : State) (nbits w : Nat) (i : Instr), decodeTableWord nbits w = some i →
    edgeKind (s.withFetchWord nbits w) = .accept ∧
    step (s.withFetchWord nbits w) = closeAccept (exec i (s.withFetchWord nbits w)) ∧
    (∃ t, step (s.withFetchWord nbits w) = .next t) ∧
    (s.withFetchWord nbits w).alphabet = s.alphabet ∧
    (s.withFetchWord nbits w).pins.nowMs = s.pins.nowMs ∧
    (s.withFetchWord nbits w).pins.nowHeld = s.pins.nowHeld

/-! ## What each command answers -/

/-- PACK (40_pack.md R97), every form: with `LEN = 0` the answer is status 0 and the packed value in `RESULT[47:0]` under
16 zero bits; with `LEN` not 0 it is `IllegalCommand`. Its corner cases and its example with it. -/
def Obligations.PackAnswers : Prop :=
  (∀ (s : State) (len : BitVec 4) (p : F64),
    exec (.pack len p) s =
      .next (respond { cmd := encode (.pack len p), sample := none }
        (if len = 0#4 then { status := 0#2, result := (packV p).setWidth 64 } else { status := 2#2, result := 0#64 }) s)) ∧
  (∀ p : F64, encode (.pack 0 p) = 0x10#8 ++ p) ∧
  (∀ p : F64, ((packV p).setWidth 64 : BitVec 64).extractLsb' 48 16 = 0) ∧
  (∀ p : F64, biasedExponent p = 0x7FF#11 → packV p = 0) ∧
  (∀ p : F64, isFinite p = true → 2 ^ 100 ≤ |value p| → packV p = 0) ∧
  packV 0x0000000000000000 = 0 ∧ packV 0x8000000000000000 = 0 ∧
  packV 0x3FE0000000000000 = 0 ∧ packV 0x3FFFFF972474538F = 1 ∧
  packV 0xBFE0000000000000 = 0xFFFFFFFFFFFF ∧ packV 0xBFF0000000000000 = 0xFFFFFFFFFFFF ∧
  packV 0xBFF8000000000000 = 0xFFFFFFFFFFFE ∧
  packV 0x42EFFFFFFFFFFFE0 = 0xFFFFFFFFFFFF ∧ packV 0x42F0000000000000 = 0 ∧ packV 0x42F0000000000010 = 1 ∧
  packV 0xC2F0000000000000 = 0 ∧ packV 0xC2F0000000000010 = 0xFFFFFFFFFFFF ∧
  packV 0x4340000000000001 = 2 ∧ packV 0x7FEFFFFFFFFFFFFF = 0 ∧
  packV 0x0000000000000001 = 0 ∧ packV 0x8000000000000001 = 0xFFFFFFFFFFFF ∧
  packV 0x4278BCFE56800000 = 0x018BCFE56800

/-- ENCODE (41_encode.md R125), every form: `IllegalCommand` for a reserved half-word that is not 0, whatever `LEN` is;
else `InvalidLength` for `LEN` not 6; else the eight characters. Its corner cases and its example with it. -/
def Obligations.EncodeAnswers : Prop :=
  (∀ (s : State) (len : BitVec 4) (hi : BitVec 16) (v : U48), RomIntact s →
    exec (.encode len hi v) s =
      .next (respond { cmd := encode (.encode len hi v), sample := none }
        (if hi ≠ 0#16 then { status := 2#2, result := 0#64 }
         else if len ≠ 6#4 then { status := 1#2, result := 0#64 }
         else { status := 0#2, result := encode48 alphabetTable v }) s)) ∧
  (∀ (len : BitVec 4) (v : U48), encode (.encode len 0 v) = 0x2#4 ++ len ++ 0#16 ++ v) ∧
  encode48 alphabetTable 0 = 0x4141414141414141 ∧
  encode48 alphabetTable 0xFFFFFFFFFFFF = 0x5F5F5F5F5F5F5F5F ∧
  encode48 alphabetTable 0xFBEFBEFBEFBE = 0x2D2D2D2D2D2D2D2D ∧
  (List.range 8).map (fun i => (sextetAt 0x0123456789AB i).toNat) = [0, 18, 13, 5, 25, 56, 38, 43] ∧
  encode48 alphabetTable 0x0123456789AB = 0x41534E465A346D72

/-- GEN (42_generate.md R150), every form: with `LEN = 0` status 0 and the characters of the packed value; with `LEN` not
0 `IllegalCommand`. Its corner cases and its example with it. -/
def Obligations.GenAnswers : Prop :=
  (∀ (s : State) (len : BitVec 4) (p : F64), RomIntact s →
    exec (.gen len p) s =
      .next (respond { cmd := encode (.gen len p), sample := none }
        (if len = 0#4 then { status := 0#2, result := encode48 alphabetTable (packV p) }
         else { status := 2#2, result := 0#64 }) s)) ∧
  (∀ p : F64, encode (.gen 0 p) = 0x30#8 ++ p) ∧
  (∀ p : F64, isFinite p = false → encode48 alphabetTable (packV p) = 0x4141414141414141) ∧
  encode48 alphabetTable (packV 0x0000000000000000) = 0x4141414141414141 ∧
  encode48 alphabetTable (packV 0x8000000000000000) = 0x4141414141414141 ∧
  encode48 alphabetTable (packV 0x3FE0000000000000) = 0x4141414141414141 ∧
  encode48 alphabetTable (packV 0x42F0000000000000) = 0x4141414141414141 ∧
  encode48 alphabetTable (packV 0x7E37E43C8800759C) = 0x4141414141414141 ∧
  encode48 alphabetTable (packV 0xBFE0000000000000) = 0x5F5F5F5F5F5F5F5F ∧
  encode48 alphabetTable (packV 0xBFF0000000000000) = 0x5F5F5F5F5F5F5F5F ∧
  encode48 alphabetTable (packV 0x42EFFFFFFFFFFFE0) = 0x5F5F5F5F5F5F5F5F ∧
  encode48 alphabetTable (packV 0xC2F0000000000010) = 0x5F5F5F5F5F5F5F5F ∧
  encode48 alphabetTable (packV 0xBFF8000000000000) = 0x5F5F5F5F5F5F5F2D ∧
  encode48 alphabetTable (packV 0x3FF0000000000000) = 0x4141414141414142

/-- GEN_NOW (42_generate.md R151), every form: with both reserved fields 0 it samples `NOW_MS` once, status 0 and the
characters of the packed sample; otherwise `IllegalCommand` and no sample. A held `NOW_MS` is sampled as it is; a moving
one gives a value nothing is known of. Its corner cases and its example with it. -/
def Obligations.GenNowAnswers : Prop :=
  (∀ (s : State) (len : BitVec 4) (opd : BitVec 64), RomIntact s →
    exec (.genNow len opd) s =
      .next (if len = 0#4 ∧ opd = 0#64 then
          respond { cmd := encode (.genNow len opd), sample := some (sampleNow s) }
            { status := 0#2, result := encode48 alphabetTable (packV (sampleNow s)) } s
        else respond { cmd := encode (.genNow len opd), sample := none } { status := 2#2, result := 0#64 } s)) ∧
  encode (.genNow 0 0) = 0x400000000000000000 ∧
  (∀ s : State, s.pins.nowHeld = true → sampleNow s = s.pins.nowMs) ∧
  (∀ t : F64, isFinite t = false → encode48 alphabetTable (packV t) = 0x4141414141414141) ∧
  encode48 alphabetTable (packV 0x42F0000000000000) = 0x4141414141414141 ∧
  (∀ (t : F64) (n : Nat), 0 < n → isFinite t = true → value t = -n →
    (packV t).toNat = if n % 2 ^ 48 = 0 then 0 else 2 ^ 48 - n % 2 ^ 48) ∧
  encode48 alphabetTable (packV 0x4278BCFE56800000) = 0x4159765035576741

/-- No numeric input and no byte is an error (60_exceptions.md R175): a legal PACK, GEN, GEN_NOW or ENCODE of 6 bytes
answers status 0, and the number enters the result as its normalization: 0 if it is not finite, else its floor modulo
2^48. -/
def Obligations.NumericInputsAreNormalizedNotRejected : Prop :=
  (∀ (s : State) (p : F64), RomIntact s →
    exec (.pack 0 p) s =
      .next (respond { cmd := encode (.pack 0 p), sample := none }
        { status := 0#2, result := BitVec.ofInt 64 (normalizedValue (numberOf p)) } s) ∧
    exec (.gen 0 p) s =
      .next (respond { cmd := encode (.gen 0 p), sample := none }
        { status := 0#2, result := encode48 alphabetTable (BitVec.ofInt 48 (normalizedValue (numberOf p))) } s)) ∧
  (∀ s : State, RomIntact s →
    exec (.genNow 0 0) s =
      .next (respond { cmd := encode (.genNow 0 0), sample := some (sampleNow s) }
        { status := 0#2, result := encode48 alphabetTable (BitVec.ofInt 48 (normalizedValue (numberOf (sampleNow s)))) } s)) ∧
  (∀ (s : State) (v : U48), RomIntact s →
    exec (.encode 6 0 v) s =
      .next (respond { cmd := encode (.encode 6 0 v), sample := none }
        { status := 0#2, result := encode48 alphabetTable v } s)) ∧
  (∀ p : F64, isFinite p = false → normalizedValue (numberOf p) = 0) ∧
  (∀ p : F64, isFinite p = true → normalizedValue (numberOf p) = ⌊value p⌋ % 2 ^ 48)

/-- What a command leaves unchanged (10_state.md sections 1 to 6, 60_exceptions.md section 1): every one of the four
answers a next state in which its own entry is the last of the outstanding set and of the record of accepted commands,
what stood there before stands before it, and every other piece of state is as it was. There is no memory and there are
no registers and no flags to change. -/
def Obligations.ExecFrame : Prop :=
  ∀ (i : Instr) (s : State), ∃ t p, exec i s = .next t ∧
    t.outstanding = s.outstanding ++ [p] ∧ p.entry.cmd = encode i ∧ p.age = 0 ∧
    t.record.accepted = s.record.accepted ++ [p.entry] ∧ t.record.taken = s.record.taken ∧
    t.alphabet = s.alphabet ∧ t.pins = s.pins ∧ t.script = s.script ∧ t.out = s.out ∧ t.params = s.params ∧
    t.phase = s.phase ∧ t.stall = s.stall ∧ t.tick = s.tick

/-- `raise` (60_exceptions.md R170): the response is the error's code and 0, nothing but the command's own entry is
recorded, every other piece of state is as it was, and the next command answers as if the failed one had not been
issued. -/
def Obligations.RaiseIsPrecise : Prop :=
  ∀ (e : ErrorKind) (cmd : Cmd) (s : State),
    (raise e cmd s).outstanding =
      s.outstanding ++ [{ entry := { cmd := cmd, sample := none }, rsp := { status := errorCode e, result := 0#64 }, age := 0 }] ∧
    (raise e cmd s).record.accepted = s.record.accepted ++ [{ cmd := cmd, sample := none }] ∧
    (raise e cmd s).record.taken = s.record.taken ∧
    (raise e cmd s).alphabet = s.alphabet ∧ (raise e cmd s).pins = s.pins ∧ (raise e cmd s).script = s.script ∧
    (raise e cmd s).out = s.out ∧ (raise e cmd s).params = s.params ∧ (raise e cmd s).phase = s.phase ∧
    (raise e cmd s).stall = s.stall ∧ (raise e cmd s).tick = s.tick ∧
    (∀ (i : Instr), newest (exec i (raise e cmd s)) = newest (exec i s)) ∧
    errorCode e ≠ 0#2

/-- `InvalidLength` (60_exceptions.md R172) is raised when, and only when, the accepted word is an ENCODE with
`OPERAND[63:48] = 0` and `LEN` other than 6. -/
def Obligations.InvalidLengthExactly : Prop :=
  ∀ s : State, ∃ a r, runCommand s = .next (respond a r s) ∧
    (r.status = 1#2 ↔
      s.pins.cmd.extractLsb' 68 4 = 0x2#4 ∧ s.pins.cmd.extractLsb' 48 16 = 0#16 ∧
        (s.pins.cmd.extractLsb' 64 4).toNat ∈ [0, 1, 2, 3, 4, 5, 7, 8, 9, 10, 11, 12, 13, 14, 15]) ∧
    (r.status = 1#2 → r.result = 0#64)

/-- `IllegalCommand` (60_exceptions.md R173) is raised when, and only when, the accepted word is in the illegal set. -/
def Obligations.IllegalCommandExactly : Prop :=
  ∀ s : State, ∃ a r, runCommand s = .next (respond a r s) ∧
    (r.status = 2#2 ↔ IllegalSet s.pins.cmd) ∧ (r.status = 2#2 → r.result = 0#64 ∧ a.sample = none)

/-- Where both errors apply, `IllegalCommand` wins (60_exceptions.md R174). -/
def Obligations.IllegalCommandWins : Prop :=
  ∀ s : State, s.pins.cmd.extractLsb' 68 4 = 0x2#4 → s.pins.cmd.extractLsb' 48 16 ≠ 0#16 →
    s.pins.cmd.extractLsb' 64 4 ≠ 6#4 →
    runCommand s = .next (respond { cmd := s.pins.cmd, sample := none } { status := 2#2, result := 0#64 } s)

/-- A response depends on its own command and, for a GEN_NOW only, its own sample: two states with the same ROM give a
command the same answer, whatever else they hold (10_state.md section 4, 20_memory.md section 3, 42_generate.md
section 3). -/
def Obligations.ResponseDependsOnCommandAndSampleOnly : Prop :=
  ∀ (i : Instr) (s s' : State), s.alphabet = s'.alphabet →
    ((∃ len opd, i = .genNow len opd) → sampleNow s = sampleNow s') →
    newest (exec i s) = newest (exec i s')

/-- Every accepted word is answered by `Exec` on that word and the sample of that edge (30_encoding.md R69), and what the
block holds of it has a sample exactly when it is a legal GEN_NOW; no other word's answer depends on `NOW_MS`. -/
def Obligations.AcceptedCommandIsAnsweredByExec : Prop :=
  (∀ s : State, RomIntact s → edgeKind s = .accept →
    step s = closeEdge true true
      (respond (acceptedOf s.pins.cmd (sampleNow s)) (execWord alphabetTable s.pins.cmd (sampleNow s)) s)) ∧
  (∀ (rom : Vector Byte 64) (w : Cmd) (now now' : F64), samplesNow w = false → execWord rom w now = execWord rom w now') ∧
  (∀ w : Cmd, samplesNow w = true ↔ decode w = .instr (.genNow 0 0))

/-! ## The machine -/

/-- The state right after reset meets the invariant of the model. -/
def Obligations.ResetMeetsInvariant : Prop := MachineInv State.reset

/-- What reset leaves, as far as the table of 70_reset_and_hazards.md section 1 fixes it: the alphabet's fixed contents,
an empty outstanding set, `RSP_VALID` 0. Beside the table, and the model's choice: `RST` is back at 0 (log entry 2), and
the block counts as reset (log entry 9). -/
def Obligations.ResetStateIsTheTable : Prop :=
  State.reset.alphabet = alphabetTable ∧ State.reset.outstanding = [] ∧ State.reset.out.rspValid = false ∧
  State.reset.pins.rst = false ∧ State.reset.phase = .operating

/-- Every step keeps the invariant of the machine: the ROM intact, the parameters in range, at most `MAX_OUTSTANDING`
commands outstanding, each with the response `Exec` gives its own word and sample, responses in acceptance order, samples
for legal GEN_NOW words only (10_state.md sections 2, 4 and 5, 20_memory.md section 5). -/
def Obligations.StepKeepsInvariant : Prop :=
  ∀ s t : State, MachineInv s → step s = .next t → MachineInv t

/-- An edge with `RST = 1` brings any state, that of power-up included, into the invariant, as long as the ROM and the
parameters are right (70_reset_and_hazards.md section 1). -/
def Obligations.ResetEdgeEstablishesInvariant : Prop :=
  ∀ s : State, RomIntact s → ParamsInRange s.params → s.pins.rst = true → ∃ t, step s = .next t ∧ MachineInv t

/-- From a state that meets the invariant a step never faults, and the only step without a meaning is the one of a command
presented before the first reset (60_exceptions.md section 1, 70_reset_and_hazards.md section 1). -/
def Obligations.StepAnswersFromInvariant : Prop :=
  ∀ s : State, MachineInv s →
    (∃ t, step s = .next t) ∨
    (step s = .refused .beforeFirstReset ∧ s.phase = .beforeReset ∧ s.pins.rst = false ∧ s.pins.cmdValid = true)

/-- No step writes the ROM, from power-up on, and nothing but the encoder reads it (10_state.md R23). Whatever the ROM
holds: a PACK is answered the same, and so is every command that is answered with an error; the handshake is the same, a
response being present or not, and after a step the levels of `CMD_READY`, `RSP_VALID` and `RSP_STATUS`, the commands
accepted, how many responses are taken and with which statuses, and what is outstanding with which statuses. -/
def Obligations.AlphabetIsHardwired : Prop :=
  (∀ s t : State, step s = .next t → t.alphabet = s.alphabet) ∧
  (∀ (s : State) (rom : Vector Byte 64),
    edgeKind { s with alphabet := rom } = edgeKind s ∧ cmdReady { s with alphabet := rom } = cmdReady s ∧
    (shown { s with alphabet := rom }).isSome = (shown s).isSome ∧
    (opField s.pins.cmd = 0x1#4 ∨ (execWord s.alphabet s.pins.cmd (sampleNow s)).status ≠ 0#2 →
      newest (runCommand { s with alphabet := rom }) = newest (runCommand s))) ∧
  (∀ (s t : State) (rom : Vector Byte 64), step s = .next t →
    ∃ t', step { s with alphabet := rom } = .next t' ∧
      t'.out.cmdReady = t.out.cmdReady ∧ t'.out.rspValid = t.out.rspValid ∧ t'.out.rspStatus = t.out.rspStatus ∧
      t'.record.accepted = t.record.accepted ∧
      t'.record.taken.map Response.status = t.record.taken.map Response.status ∧
      t'.outstanding.map (fun p => (p.entry, p.rsp.status, p.age)) =
        t.outstanding.map (fun p => (p.entry, p.rsp.status, p.age)) ∧
      t'.phase = t.phase ∧ t'.stall = t.stall) ∧
  State.reset.alphabet = alphabetTable

/-- No step changes the two open parameters: that they are fixed for a block is the model's choice (log entry 3; they are
arguments of a model in 93_implementation_defined.md section 1, I11). -/
def Obligations.ParametersAreConstant : Prop := ∀ s t : State, step s = .next t → t.params = s.params

/-- A reset edge (70_reset_and_hazards.md section 1), whatever the other ports carry: no command is accepted, every
outstanding command is discarded, no response is taken, `RSP_VALID` is 0 and the ROM is not touched. That nothing is
accepted or taken is read off the record, which the model empties at a reset edge (log entry 12); that the parameters stay
and that the block counts as reset are the model's choices too (log entries 3 and 9). -/
def Obligations.ResetEdgeDiscards : Prop :=
  ∀ s : State, s.pins.rst = true →
    ∃ t, step s = .next t ∧ t.outstanding = [] ∧ t.record.accepted = [] ∧ t.record.taken = [] ∧
      t.out.rspValid = false ∧ t.alphabet = s.alphabet ∧ t.params = s.params ∧ t.phase = .operating

/-- Responses come in acceptance order, one a command (20_memory.md R49): after any number of edges, the responses taken
since the last reset are, one by one and in order, `Exec` on the commands accepted since then and their own samples, and
every other accepted command is still outstanding. -/
def Obligations.ResponsesFollowAcceptanceOrder : Prop :=
  ∀ (n : Nat) (s t : State), MachineInv s → runEdges n s = .next t →
    t.record.taken = (t.record.accepted.take t.record.taken.length).map (answerTo alphabetTable) ∧
    t.record.accepted.length = t.record.taken.length + t.outstanding.length

/-- An accepted command's response is fixed at its acceptance: an edge without reset adds at most one answer behind those
given before, only when it accepts a command, and changes none of them, whatever the ports carry (20_memory.md section 5,
10_state.md section 4). For an edge before the first reset, where 70_reset_and_hazards.md R202 leaves the outstanding set
UNSPECIFIED, this is the model's choice (log entry 9). -/
def Obligations.AnswersAreNeverChanged : Prop :=
  ∀ s t : State, step s = .next t → s.pins.rst = false →
    ∃ new, answers t = answers s ++ new ∧ new.length ≤ 1 ∧ (edgeKind s ≠ .accept → new = [])

/-- The block holds a response on its port until it is taken (70_reset_and_hazards.md section 3): shown at one edge and
not taken there, it is shown unchanged at the next, unless that is a reset edge. At `LATENCY = 0`, where the port shows
the answer to the command presented, this needs the host to hold that command and its clock: there the model follows the
combinational rule of section 4, by its own choice (log entry 21). -/
def Obligations.ResponseIsHeldUntilTaken : Prop :=
  ∀ s t u : State, MachineInv s → s.phase = .operating → s.pins.rst = false → s.pins.rspReady = false →
    step s = .next t → t.out.rspValid = true → t.pins.rst = false →
    (s.params.latency = 0 → t.pins.cmdValid = s.pins.cmdValid ∧ t.pins.cmd = s.pins.cmd ∧ sampleNow t = sampleNow s) →
    step t = .next u →
    u.out.rspValid = true ∧ u.out.rspStatus = t.out.rspStatus ∧ u.out.rspResult = t.out.rspResult

/-- A response is valid exactly `LATENCY` edges after acceptance when the response port is not back-pressured
(70_reset_and_hazards.md section 4), for `LATENCY` of 1 or more, while no response is overdue and the host is ready.
First, one edge: it shows on its port and takes the response of the command accepted `LATENCY` edges before, if there is
one, and nothing else; every other command outstanding is one edge older, a command accepted at this edge is behind them,
one edge old, and again none is overdue. The age is the model's own field (log entry 7), so, second, the edges counted: a
command accepted at edge 0 has its response on the port and taken at edge `LATENCY`, and until then the responses taken
were those of the commands accepted before it. -/
def Obligations.ResponseComesAfterLatency : Prop :=
  (∀ s t : State, MachineInv s → s.phase = .operating → s.pins.rst = false → s.pins.rspReady = true →
    1 ≤ s.params.latency → (∀ p ∈ s.outstanding, p.age ≤ s.params.latency) → step s = .next t →
    t.record.taken = s.record.taken ++ (s.outstanding.filter fun p => p.age = s.params.latency).map Pending.rsp ∧
    (t.out.rspValid = true ↔ ∃ p ∈ s.outstanding, p.age = s.params.latency) ∧
    (∀ p ∈ s.outstanding, p.age = s.params.latency →
      t.out.rspStatus = p.rsp.status ∧ t.out.rspResult = p.rsp.result) ∧
    t.outstanding =
      ((s.outstanding.filter fun p => p.age ≠ s.params.latency).map fun p => { p with age := p.age + 1 }) ++
      (if edgeKind s = .accept then
        [{ entry := acceptedOf s.pins.cmd (sampleNow s), rsp := execWord alphabetTable s.pins.cmd (sampleNow s),
           age := 1 }]
      else []) ∧
    (∀ p ∈ t.outstanding, p.age ≤ t.params.latency)) ∧
  (∀ run : Nat → State, MachineInv (run 0) → (run 0).phase = .operating → 1 ≤ (run 0).params.latency →
    (∀ p ∈ (run 0).outstanding, p.age ≤ (run 0).params.latency) →
    (∀ k ≤ (run 0).params.latency,
      (run k).pins.rst = false ∧ (run k).pins.rspReady = true ∧ step (run k) = .next (run (k + 1))) →
    edgeKind (run 0) = .accept →
    (run ((run 0).params.latency + 1)).out.rspValid = true ∧
    (run ((run 0).params.latency + 1)).out.rspStatus =
      (execWord alphabetTable (run 0).pins.cmd (sampleNow (run 0))).status ∧
    (run ((run 0).params.latency + 1)).out.rspResult =
      (execWord alphabetTable (run 0).pins.cmd (sampleNow (run 0))).result ∧
    (run (run 0).params.latency).record.taken.length = (run 0).record.accepted.length ∧
    (run ((run 0).params.latency + 1)).record.taken =
      (run (run 0).params.latency).record.taken ++ [execWord alphabetTable (run 0).pins.cmd (sampleNow (run 0))])

/-- At `LATENCY = 0` the block is combinational: `RSP_VALID` is `CMD_VALID`, `CMD_READY` is `RSP_READY`, the response is
`Exec` on the word on the port, and nothing stays outstanding (70_reset_and_hazards.md section 4, which states the two
equations). That the port shows this response also at an edge that does not accept is the model's reading (log entry 6),
as are its changing with the clock there and its being shown before the first acceptance (log entries 21 and 22). That
`CMD_READY` is `RSP_READY` even if the host is never ready is its choice too (log entry 25). -/
def Obligations.ZeroLatencyIsCombinational : Prop :=
  ∀ s t : State, MachineInv s → s.phase = .operating → s.pins.rst = false → s.params.latency = 0 → step s = .next t →
    t.out.rspValid = s.pins.cmdValid ∧ t.out.cmdReady = s.pins.rspReady ∧ t.outstanding = [] ∧
    s.params.maxOutstanding = 1 ∧
    (s.pins.cmdValid = true →
      t.out.rspStatus = (execWord alphabetTable s.pins.cmd (sampleNow s)).status ∧
      t.out.rspResult = (execWord alphabetTable s.pins.cmd (sampleNow s)).result)

/-- Liveness (70_reset_and_hazards.md section 4, R207 and R208): as long as no reset comes, the oldest outstanding command's
response becomes valid within `LATENCY` edges, a bound the spec does not state after back-pressure and the model's reading
there (log entry 23), however the host drives the other ports; a response that is valid at an edge where the host
is ready is taken there; no edge without reset drops an accepted command; and in a run without reset in which the host is
ready again and again, every accepted command's response is delivered, in order. -/
def Obligations.AcceptedCommandIsAnsweredInBoundedTime : Prop :=
  (∀ (s : State) (p : Pending) (rest : List Pending), MachineInv s → s.phase = .operating → NoResetAhead s →
    s.outstanding = p :: rest →
    ∃ n t, n ≤ s.params.latency ∧ runEdges (n + 1) s = .next t ∧ t.out.rspValid = true ∧
      t.out.rspStatus = p.rsp.status ∧ t.out.rspResult = p.rsp.result) ∧
  (∀ (s t : State) (p : Pending) (rest : List Pending), MachineInv s → s.phase = .operating → s.pins.rst = false →
    s.outstanding = p :: rest → s.params.latency ≤ p.age → s.pins.rspReady = true → step s = .next t →
    t.record.taken = s.record.taken ++ [p.rsp]) ∧
  (∀ s t : State, MachineInv s → s.phase = .operating → s.pins.rst = false → step s = .next t →
    ∃ new, t.record.accepted = s.record.accepted ++ new ∧
      t.record.accepted.length = t.record.taken.length + t.outstanding.length) ∧
  (∀ run : Nat → State, MachineInv (run 0) → (run 0).phase = .operating →
    (∀ k, (run k).pins.rst = false ∧ step (run k) = .next (run (k + 1))) →
    (∀ k, ∃ m, k ≤ m ∧ (run m).pins.rspReady = true) → ∀ k, ∃ n, answers (run k) <+: (run n).record.taken)

/-- After reset `CMD_READY` rises within finitely many edges if there is room (70_reset_and_hazards.md section 1; 00_scope.md
section 4): with fewer than `MAX_OUTSTANDING` commands outstanding and no reset ahead it is up after the number of edges the
block still holds it low, but for `LATENCY = 0`, where it follows `RSP_READY` (the model's choice between two rules, log
entry 25). That the hold is `stall` edges and no other
starts in between is the model's choice (log entry 4). -/
def Obligations.ReadyWithinFinitelyManyEdges : Prop :=
  ∀ s : State, MachineInv s → s.phase = .operating → NoResetAhead s → s.outstanding.length < s.params.maxOutstanding →
    ∃ t, runEdges s.stall s = .next t ∧
      cmdReady t = (t.pins.rspReady || t.params.latency != 0)

/-- The handshake is on the ports (10_state.md section 4): `CMD_READY` at an edge is the level the step decides by, a
command is accepted exactly when `CMD_VALID` and that level are both 1, and a response is taken exactly when `RSP_VALID` and
`RSP_READY` are both 1, and then it is the one on the port. Accepted and taken are read off the model's record (log
entry 12). -/
def Obligations.HandshakeIsOnThePorts : Prop :=
  ∀ s t : State, MachineInv s → s.phase = .operating → s.pins.rst = false → step s = .next t →
    t.out.cmdReady = cmdReady s ∧
    (if s.pins.cmdValid = true ∧ t.out.cmdReady = true then
      ∃ a, a.cmd = s.pins.cmd ∧ t.record.accepted = s.record.accepted ++ [a]
    else t.record.accepted = s.record.accepted) ∧
    (if t.out.rspValid = true ∧ s.pins.rspReady = true then
      t.record.taken = s.record.taken ++ [{ status := t.out.rspStatus, result := t.out.rspResult }]
    else t.record.taken = s.record.taken)

/-- The reset state holds until the first acceptance (70_reset_and_hazards.md section 1), for `LATENCY` of 1 or more: with
nothing outstanding no edge shows a response, and only an edge that accepts a command leaves one outstanding. (At
`LATENCY = 0` the model follows the combinational rule, log entry 22.) -/
def Obligations.PortIsSilentUntilFirstAcceptance : Prop :=
  ∀ s t : State, MachineInv s → s.phase = .operating → 1 ≤ s.params.latency → s.outstanding = [] → step s = .next t →
    t.out.rspValid = false ∧ (edgeKind s ≠ .accept → t.outstanding = [])

/-- A host that keeps its obligations has the command accepted that it presented first: the word on the port at the edge
that accepts is the word that stood there when `CMD_VALID` rose (70_reset_and_hazards.md section 3). -/
def Obligations.PresentedCommandIsTheOneAccepted : Prop :=
  ∀ (run : Nat → State) (n : Nat),
    (∀ k ≤ n, step (run k) = .next (run (k + 1)) ∧ HostObeys (run k) (run (k + 1))) →
    (run 0).pins.cmdValid = true → (∀ k < n, edgeKind (run k) = .idle) → edgeKind (run n) = .accept →
    ∃ a, a.cmd = (run 0).pins.cmd ∧ (run (n + 1)).record.accepted = (run 0).record.accepted ++ [a] ∧
      (samplesNow a.cmd = true → a.sample = some (run n).pins.nowMs)

/-- Before the first reset edge, where 70_reset_and_hazards.md section 1 leaves the outstanding set and the handshake
outputs UNSPECIFIED: a command presented is given no meaning, and any other edge without reset keeps everything but the
ports, the script and the edge count. Both are the model's choice (log entry 9): the refusal, as
93_implementation_defined.md section 1 has it, and that what is outstanding, the record and the hold on `CMD_READY` stay as
they were. That the parameters stay is log entry 3; only the alphabet's clause is the spec's. -/
def Obligations.NoMeaningBeforeFirstReset : Prop :=
  ∀ s : State, s.phase = .beforeReset → s.pins.rst = false →
    (s.pins.cmdValid = true → step s = .refused .beforeFirstReset) ∧
    (s.pins.cmdValid = false → ∃ t, step s = .next t ∧ t.phase = .beforeReset ∧ t.outstanding = s.outstanding ∧
      t.record = s.record ∧ t.alphabet = s.alphabet ∧ t.stall = s.stall ∧ t.params = s.params)

/-- Status 3 is never produced, and a status other than 0 comes with a result of 0 (60_exceptions.md section 1): not by
`Exec`, and not on the response port of a block that meets the invariant. -/
def Obligations.StatusThreeIsNeverShown : Prop :=
  (∀ (rom : Vector Byte 64) (w : Cmd) (now : F64),
    (execWord rom w now).status ≠ 3#2 ∧ ((execWord rom w now).status ≠ 0#2 → (execWord rom w now).result = 0#64)) ∧
  (∀ s t : State, MachineInv s → s.phase = .operating → step s = .next t → t.out.rspValid = true →
    t.out.rspStatus ≠ 3#2 ∧ (t.out.rspStatus ≠ 0#2 → t.out.rspResult = 0#64))

/-- Blocks side by side (60_exceptions.md section 5): under any interleaving of the edges of any blocks, whatever the others
hold and do, a block that meets the invariant meets it after, its responses are `Exec` on its own commands and samples in
their order, an answer it has given stays as long as no reset comes, and it is where its own edges alone would have taken
it. That the blocks are a list of States in which an edge belongs to one of them, and that one that stops stays as it is,
is the model's choice (log entry 19). So is, for a block before its first reset, that what it holds stays (log entry 9;
70_reset_and_hazards.md R202 leaves it UNSPECIFIED). -/
def Obligations.BlocksSideBySideAnswerAsAlone : Prop :=
  ∀ (blocks : List State) (schedule : List Nat) (k : Nat) (s : State), blocks[k]? = some s → MachineInv s →
    ∃ t, (runSchedule blocks schedule)[k]? = some t ∧ t = advanceMany (schedule.count k) s ∧ MachineInv t ∧
      t.record.taken = (t.record.accepted.take t.record.taken.length).map (answerTo alphabetTable) ∧
      t.record.accepted.length = t.record.taken.length + t.outstanding.length ∧
      (NoResetAhead s → answers s <+: answers t)

/-! ## The values -/

/-- The floor worked out from the fields is the floor of the exact value (40_pack.md R95), and the two shortcuts of the rule
hold: for `k` of 48 or more the value modulo 2^48 is 0, for `k` of -54 or less the floor is 0 or -1. The packed value
(R96) is 0 for a pattern that is not finite, else that floor modulo 2^48, which is the normalization of the number, and
byte `k` of the buffer is its bits `[47-8k:40-8k]`. -/
def Obligations.FloorIntIsExact : Prop :=
  (∀ p : F64, isFinite p = true → floorInt p = ⌊value p⌋) ∧
  (∀ p : F64, isFinite p = false → packV p = 0) ∧
  (∀ p : F64, isFinite p = true → ((packV p).toNat : Int) = floorInt p % 2 ^ 48) ∧
  (∀ (p : F64) (k j : Nat), k < 6 → j < 8 → (byteAt (packV p) k).getLsbD j = (packV p).getLsbD (40 - 8 * k + j)) ∧
  (∀ p : F64, ((packV p).toNat : Int) = normalizedValue (numberOf p)) ∧
  (∀ p : F64, isFinite p = true → 48 ≤ scale p → floorInt p % 2 ^ 48 = 0) ∧
  (∀ p : F64, isFinite p = true → scale p ≤ -54 →
    |value p| < 1 ∧ floorInt p = if signBit p = true ∧ significand p ≠ 0 then -1 else 0)

/-- The four steps of the normalization are the floor modulo 2^48 (derived by 40_pack.md section 2). -/
def Obligations.NormalizeIsFloorModulo : Prop :=
  ∀ x : Option ℚ, normalizedValue x = ⌊x.getD 0⌋ % 2 ^ 48

/-- The normalization wraps modulo 2^48, gives negative integers their two's-complement pattern, and always fits 48 bits
(40_pack.md section 4). -/
def Obligations.NormalizeWraps : Prop :=
  (∀ x : ℚ, normalizedValue (some (x + 2 ^ 48)) = normalizedValue (some x)) ∧
  (∀ v : Int, v < 0 → normalizedValue (some (v : ℚ)) = if (-v) % 2 ^ 48 = 0 then 0 else 2 ^ 48 - (-v) % 2 ^ 48) ∧
  (∀ x : Option ℚ, 0 ≤ normalizedValue x ∧ normalizedValue x < 2 ^ 48)

/-- Every finite value of magnitude 2^100 or more packs to 0, having a scale of 48 or more (derived by 40_pack.md
section 4). -/
def Obligations.HugeValuesPackToZero : Prop :=
  ∀ p : F64, isFinite p = true → 2 ^ 100 ≤ |value p| → 48 ≤ scale p ∧ packV p = 0

/-- Every integer of 48 bits is exactly a binary64 value, and every pattern of that value packs to the integer (derived by
40_pack.md section 4). -/
def Obligations.InRangeIntegersPackToThemselves : Prop :=
  ∀ t : U48, (∃ p, isFinite p = true ∧ value p = t.toNat) ∧
    ∀ p, isFinite p = true → value p = t.toNat → packV p = t

/-- The characters of an encoded value (41_encode.md R121, R123; 20_memory.md R42): character `i`, at
`RESULT[63-8i:56-8i]`, is the alphabet's entry for the sextet that cwac's shifts and masks give of the six bytes. -/
def Obligations.CharactersFollowTheByteFormulas : Prop :=
  (∀ b0 b1 b2 b3 b4 b5 : Byte, ∀ i (h : i < 8),
    resultByte (encode48 alphabetTable (b0 ++ b1 ++ b2 ++ b3 ++ b4 ++ b5)) i =
      alphabetAt alphabetTable ((sextetsOfBytes b0 b1 b2 b3 b4 b5)[i]'h)) ∧
  encode48 alphabetTable 1 = 0x4141414141414142

/-- The sextets of the byte formulas are the eight 6-bit slices of the value, and put together they are the value
(derived by 41_encode.md section 2). -/
def Obligations.SextetsAreTheSlices : Prop :=
  (∀ b0 b1 b2 b3 b4 b5 : Byte, sextetsOfBytes b0 b1 b2 b3 b4 b5 =
    (List.range 8).map (sextetAt (b0 ++ b1 ++ b2 ++ b3 ++ b4 ++ b5))) ∧
  (∀ v : U48, v = sextetAt v 0 ++ sextetAt v 1 ++ sextetAt v 2 ++ sextetAt v 3 ++
    sextetAt v 4 ++ sextetAt v 5 ++ sextetAt v 6 ++ sextetAt v 7)

/-- Byte order (20_memory.md R41): byte `k` is `V[47-8k:40-8k]`, the six bytes in order are the value, and the PACK result
and the ENCODE operand carry byte `k` at that place. -/
def Obligations.BytesAreBigEndian : Prop :=
  (∀ v : U48, v = byteAt v 0 ++ byteAt v 1 ++ byteAt v 2 ++ byteAt v 3 ++ byteAt v 4 ++ byteAt v 5) ∧
  (∀ (v : U48) (k j : Nat), k < 6 → j < 8 → (byteAt v k).getLsbD j = v.getLsbD (40 - 8 * k + j)) ∧
  (∀ (v : U48) (k : Nat), k < 6 → (v.setWidth 64 : BitVec 64).extractLsb' (40 - 8 * k) 8 = byteAt v k) ∧
  (∀ (len : BitVec 4) (hi : BitVec 16) (v : U48) (k : Nat), k < 6 →
    (encode (.encode len hi v)).extractLsb' (40 - 8 * k) 8 = byteAt v k)

/-- GEN adds nothing to PACK and ENCODE: it answers what ENCODE of 6 bytes answers for the packed value, and for
`RESULT[47:0]` of the PACK (derived by 42_generate.md section 3). -/
def Obligations.GenIsEncodeOfPack : Prop :=
  ∀ (s : State) (p : F64), RomIntact s →
    ∃ r packed, newest (exec (.pack 0 p) s) = some ({ cmd := encode (.pack 0 p), sample := none }, packed) ∧
      newest (exec (.gen 0 p) s) = some ({ cmd := encode (.gen 0 p), sample := none }, r) ∧ r.status = 0#2 ∧
      newest (exec (.encode 6 0 (packV p)) s) =
        some ({ cmd := encode (.encode 6 0 (packV p)), sample := none }, r) ∧
      newest (exec (.encode 6 0 (packed.result.extractLsb' 0 48)) s) =
        some ({ cmd := encode (.encode 6 0 (packed.result.extractLsb' 0 48)), sample := none }, r)

/-- The encoder is standard Base64URL of the six bytes without padding (derived by 41_encode.md section 5 from RFC 4648). -/
def Obligations.EncoderIsStandardBase64Url : Prop :=
  ∀ v : U48, resultChars (encode48 alphabetTable v) = base64url (bytesOf v)

/-- Numeric order is the lexicographic order of the index strings (derived by 41_encode.md section 5). -/
def Obligations.IndexStringsKeepOrder : Prop :=
  ∀ a b : U48, a < b →
    lexLess (indexString (encode48 alphabetTable a)) (indexString (encode48 alphabetTable b)) = true

/-- The order fails under the character codes: 51 and 52 are the spec's counterexample (41_encode.md section 5). -/
def Obligations.CodeOrderFails : Prop :=
  encode48 alphabetTable 51 = 0x414141414141417A ∧ encode48 alphabetTable 52 = 0x4141414141414130 ∧
  encode48 alphabetTable 52 < encode48 alphabetTable 51

/-- Every character of an encoded value is an entry of the alphabet and none is the padding character (derived by
41_encode.md section 5). -/
def Obligations.CharactersAreOfTheAlphabet : Prop :=
  ∀ v : U48, (resultChars (encode48 alphabetTable v)).length = 8 ∧
    ∀ c ∈ resultChars (encode48 alphabetTable v), c ∈ alphabetTable.toList ∧ c ≠ 0x3D

/-- `Decode48` inverts the encoder, and is defined exactly on the words whose eight bytes are alphabet codes (derived by
41_encode.md section 5). -/
def Obligations.DecodeOracleInvertsEncoder : Prop :=
  (∀ v : U48, decode48 (encode48 alphabetTable v) = some v) ∧
  (∀ r : BitVec 64, (decode48 r).isSome = true ↔ ∀ c ∈ resultChars r, c ∈ alphabetTable.toList)

/-- The alphabet's contents, by the closed form of 10_state.md section 2, which derives it from its table: 64 distinct
codes, none of them the padding character. -/
def Obligations.AlphabetContents : Prop :=
  (∀ i : Fin 64, (alphabetTable[i]).toNat =
    if i.val ≤ 25 then 0x41 + i.val
    else if i.val ≤ 51 then 0x61 + (i.val - 26)
    else if i.val ≤ 61 then 0x30 + (i.val - 52)
    else if i.val = 62 then 0x2D else 0x5F) ∧
  (∀ i j : Fin 64, alphabetTable[i] = alphabetTable[j] → i = j) ∧
  (∀ i : Fin 64, alphabetTable[i] ≠ 0x3D)

/-- Two GEN_NOW results are in order when their samples' normalized values are, by alphabet index, and only under that
premise on the samples (42_generate.md section 3). -/
def Obligations.GenNowOrderNeedsOrderedSamples : Prop :=
  ∀ t₁ t₂ : F64,
    normalizedValue (numberOf t₁) ≤ normalizedValue (numberOf t₂) ↔
      lexLess (indexString (encode48 alphabetTable (packV t₂))) (indexString (encode48 alphabetTable (packV t₁))) = false

/-- The disassembler (30_encoding.md section 5): a word of one of the four commands is printed with its mnemonic, every other
word, and no word of a command, as `.word72`, and every word assembles back from its disassembly. The section gives the
mnemonics; the text of the printed line, its one blank and its upper-case hexadecimal digits, is presumed (log entry 18). -/
def Obligations.DisassemblyAssemblesBack : Prop :=
  (∀ w : Cmd, assemble (disassemble w) = some w) ∧
  (∀ w : Cmd, disassemble w = .word72 w ↔ IllegalSet w) ∧
  (∀ (w : Cmd) (i : Instr), decode w = .instr i →
    (disassembleText w).takeWhile (fun c => c != ' ') = (mnemonicOf i).toList) ∧
  (∀ w : Cmd, IllegalSet w → disassembleText w = ".word72 0x".toList ++ hexDigits 18 w.toNat)

/-- The integers the pseudo-instructions PACKI and GENI take are those of magnitude 2^53 or less, and the assembler gives
each its exact binary64 pattern (30_encoding.md section 5, whose conversion is the exact one). -/
def Obligations.PseudoInstructionIntegersAreExact : Prop :=
  ∀ n : Int,
    (n.natAbs ≤ 2 ^ 53 → ∃ p, isFinite p = true ∧ value p = n ∧
      assemble (.packi n) = some (encode (.pack 0 p)) ∧ assemble (.geni n) = some (encode (.gen 0 p))) ∧
    (2 ^ 53 < n.natAbs → assemble (.packi n) = none ∧ assemble (.geni n) = none)
end

