-- ==== Sys2Proof/Laws/State.lean ====
section
/-! SUPPORT. What each operation leaves in each field of the state, one lemma a field. -/

namespace Sys2Proof.Machine

@[simp] theorem respond_alphabet (a r) (s : State) : (respond a r s).alphabet = s.alphabet := rfl
@[simp] theorem respond_outstanding (a r) (s : State) :
    (respond a r s).outstanding = s.outstanding ++ [{ entry := a, rsp := r, age := 0 }] := rfl
@[simp] theorem respond_pins (a r) (s : State) : (respond a r s).pins = s.pins := rfl
@[simp] theorem respond_script (a r) (s : State) : (respond a r s).script = s.script := rfl
@[simp] theorem respond_out (a r) (s : State) : (respond a r s).out = s.out := rfl
@[simp] theorem respond_accepted (a r) (s : State) :
    (respond a r s).record.accepted = s.record.accepted ++ [a] := rfl
@[simp] theorem respond_taken (a r) (s : State) : (respond a r s).record.taken = s.record.taken := rfl
@[simp] theorem respond_params (a r) (s : State) : (respond a r s).params = s.params := rfl
@[simp] theorem respond_phase (a r) (s : State) : (respond a r s).phase = s.phase := rfl
@[simp] theorem respond_stall (a r) (s : State) : (respond a r s).stall = s.stall := rfl
@[simp] theorem respond_tick (a r) (s : State) : (respond a r s).tick = s.tick := rfl

@[simp] theorem nextEdge_alphabet (s : State) : (nextEdge s).alphabet = s.alphabet := rfl
@[simp] theorem nextEdge_outstanding (s : State) : (nextEdge s).outstanding = s.outstanding := rfl
@[simp] theorem nextEdge_pins (s : State) : (nextEdge s).pins = s.script.headD .idle := rfl
@[simp] theorem nextEdge_script (s : State) : (nextEdge s).script = s.script.tail := rfl
@[simp] theorem nextEdge_out (s : State) : (nextEdge s).out = s.out := rfl
@[simp] theorem nextEdge_record (s : State) : (nextEdge s).record = s.record := rfl
@[simp] theorem nextEdge_params (s : State) : (nextEdge s).params = s.params := rfl
@[simp] theorem nextEdge_phase (s : State) : (nextEdge s).phase = s.phase := rfl
@[simp] theorem nextEdge_stall (s : State) : (nextEdge s).stall = s.stall := rfl
@[simp] theorem nextEdge_tick (s : State) : (nextEdge s).tick = s.tick + 1 := rfl

@[simp] theorem resetEdge_alphabet (s : State) : (resetEdge s).alphabet = s.alphabet := rfl
@[simp] theorem resetEdge_outstanding (s : State) : (resetEdge s).outstanding = [] := rfl
@[simp] theorem resetEdge_pins (s : State) : (resetEdge s).pins = s.script.headD .idle := rfl
@[simp] theorem resetEdge_script (s : State) : (resetEdge s).script = s.script.tail := rfl
@[simp] theorem resetEdge_record (s : State) : (resetEdge s).record = .empty := rfl
@[simp] theorem resetEdge_params (s : State) : (resetEdge s).params = s.params := rfl
@[simp] theorem resetEdge_phase (s : State) : (resetEdge s).phase = .operating := rfl
@[simp] theorem resetEdge_stall (s : State) : (resetEdge s).stall = drawStall s := rfl
@[simp] theorem resetEdge_tick (s : State) : (resetEdge s).tick = s.tick + 1 := rfl
@[simp] theorem resetEdge_out (s : State) :
    (resetEdge s).out = outputs s.tick (Config.freeReady s.tick) none := rfl

@[simp] theorem settle_alphabet (r a) (s : State) : (settle r a s).alphabet = (takeOldest s).alphabet := rfl
@[simp] theorem settle_outstanding (r a) (s : State) :
    (settle r a s).outstanding = (takeOldest s).outstanding.map Pending.older := rfl
@[simp] theorem settle_pins (r a) (s : State) : (settle r a s).pins = (takeOldest s).script.headD .idle := rfl
@[simp] theorem settle_script (r a) (s : State) : (settle r a s).script = (takeOldest s).script.tail := rfl
@[simp] theorem settle_out (r a) (s : State) : (settle r a s).out = outputs s.tick r (shown s) := rfl
@[simp] theorem settle_record (r a) (s : State) : (settle r a s).record = (takeOldest s).record := rfl
@[simp] theorem settle_params (r a) (s : State) : (settle r a s).params = (takeOldest s).params := rfl
@[simp] theorem settle_phase (r a) (s : State) : (settle r a s).phase = (takeOldest s).phase := rfl
@[simp] theorem settle_stall (r a) (s : State) :
    (settle r a s).stall = if a then drawStall s else s.stall - 1 := rfl
@[simp] theorem settle_tick (r a) (s : State) : (settle r a s).tick = (takeOldest s).tick + 1 := rfl

@[simp] theorem Pending.older_entry (p : Pending) : p.older.entry = p.entry := rfl
@[simp] theorem Pending.older_rsp (p : Pending) : p.older.rsp = p.rsp := rfl
@[simp] theorem Pending.older_age (p : Pending) : p.older.age = p.age + 1 := rfl

/-- Taking the oldest response touches the outstanding set and the record of responses taken, and nothing else. -/
theorem takeOldest_frame (s : State) :
    takeOldest s =
      { s with outstanding := (takeOldest s).outstanding
               record := { s.record with taken := (takeOldest s).record.taken } } := by
  unfold takeOldest
  split
  · split <;> rfl
  · rfl

@[simp] theorem takeOldest_alphabet (s : State) : (takeOldest s).alphabet = s.alphabet := by
  rw [takeOldest_frame]
@[simp] theorem takeOldest_pins (s : State) : (takeOldest s).pins = s.pins := by rw [takeOldest_frame]
@[simp] theorem takeOldest_script (s : State) : (takeOldest s).script = s.script := by rw [takeOldest_frame]
@[simp] theorem takeOldest_out (s : State) : (takeOldest s).out = s.out := by rw [takeOldest_frame]
@[simp] theorem takeOldest_accepted (s : State) :
    (takeOldest s).record.accepted = s.record.accepted := by rw [takeOldest_frame]
@[simp] theorem takeOldest_params (s : State) : (takeOldest s).params = s.params := by rw [takeOldest_frame]
@[simp] theorem takeOldest_phase (s : State) : (takeOldest s).phase = s.phase := by rw [takeOldest_frame]
@[simp] theorem takeOldest_stall (s : State) : (takeOldest s).stall = s.stall := by rw [takeOldest_frame]
@[simp] theorem takeOldest_tick (s : State) : (takeOldest s).tick = s.tick := by rw [takeOldest_frame]

end Sys2Proof.Machine
end

