-- ==== Sys2Proof/Laws/Ops.lean ====
section
/-! SUPPORT. What each shared operation can do, said once, and what a step can do. -/

namespace Sys2Proof.Machine

/-- An error is the answer `(code, 0)` of a command that sampled nothing. -/
theorem raise_eq_respond (e : ErrorKind) (cmd : Cmd) (s : State) :
    raise e cmd s = respond { cmd := cmd, sample := none } (errorResponse e) s := rfl

/-- Every meaning answers a next state, in which its command has joined the outstanding set with some response. -/
theorem exec_answers (i : Instr) (s : State) :
    ∃ sample r, exec i s = .next (respond { cmd := encode i, sample := sample } r s) := by
  cases i with
  | pack len operand =>
    simp only [exec, execPack, raise_eq_respond]
    split <;> exact ⟨_, _, rfl⟩
  | encode len operandHi bytes =>
    simp only [exec, execEncode, raise_eq_respond]
    split
    · exact ⟨_, _, rfl⟩
    · split <;> exact ⟨_, _, rfl⟩
  | gen len operand =>
    simp only [exec, execGen, raise_eq_respond]
    split <;> exact ⟨_, _, rfl⟩
  | genNow len operand =>
    simp only [exec, execGenNow, raise_eq_respond]
    split <;> exact ⟨_, _, rfl⟩

/-- The same of the command an edge accepts, legal or not. -/
theorem runCommand_answers (s : State) : ∃ a r, runCommand s = .next (respond a r s) := by
  unfold runCommand
  split
  · obtain ⟨sample, r, h⟩ := exec_answers ‹_› s
    exact ⟨_, r, h⟩
  · exact ⟨_, _, rfl⟩

/-- Closing an edge faults exactly on a response with status 3, and settles it otherwise. -/
theorem closeEdge_next {ready accepted : Bool} {s t : State} :
    closeEdge ready accepted s = .next t ↔ nonconforming s = false ∧ t = settle ready accepted s := by
  unfold closeEdge
  cases nonconforming s <;> simp [eq_comm]

/-- Taking the oldest response does nothing, or moves the oldest due response into the record of those taken. -/
theorem takeOldest_cases (s : State) :
    takeOldest s = s ∨
    ∃ p rest, s.outstanding = p :: rest ∧ s.params.latency ≤ p.age ∧ s.pins.rspReady = true ∧
      takeOldest s =
        { s with outstanding := rest, record := { s.record with taken := s.record.taken ++ [p.rsp] } } := by
  unfold takeOldest
  split
  · rename_i p rest ho
    split
    · rename_i hd
      simp only [isDue, Bool.and_eq_true, decide_eq_true_eq] at hd
      exact .inr ⟨p, rest, ho, hd.1, hd.2, rfl⟩
    · exact .inl rfl
  · exact .inl rfl

/-- A response on the port is the oldest outstanding one, due, or at latency 0 that of the word presented. -/
theorem shown_some {s : State} {r : Response} (h : shown s = some r) :
    (∃ p rest, s.outstanding = p :: rest ∧ s.params.latency ≤ p.age ∧ r = p.rsp) ∨
    (s.outstanding = [] ∧ s.params.latency = 0 ∧ s.pins.cmdValid = true ∧
      r = execWord s.alphabet s.pins.cmd (sampleNow s)) := by
  unfold shown at h
  split at h
  · rename_i p rest ho
    split at h
    · rename_i hd
      cases h
      exact .inl ⟨p, rest, ho, by simpa [isDue] using hd, rfl⟩
    · cases h
  · rename_i ho
    split at h
    · rename_i hc
      cases h
      exact .inr ⟨ho, hc.1, hc.2, rfl⟩
    · cases h

/-- With a reset behind it and none now, an edge accepts a command or is idle, by the two handshake levels. -/
theorem edgeKind_operating {s : State} (hp : s.phase = .operating) (hr : s.pins.rst = false) :
    edgeKind s = if s.pins.cmdValid && cmdReady s then .accept else .idle := by
  simp [edgeKind, hp, hr]

/-- Everything a step that answers a next state can do: a reset edge, an edge of the powering-up block, an idle edge, or
an edge at which one command joins the outstanding set and is settled with the rest. -/
theorem step_cases {s t : State} (h : step s = .next t) :
    (edgeKind s = .reset ∧ t = resetEdge s) ∨
    (edgeKind s = .powerUp ∧ s.pins.cmdValid = false ∧ powerUpEdge s = .next t) ∨
    (edgeKind s = .idle ∧ nonconforming s = false ∧ t = settle (cmdReady s) false s) ∨
    (edgeKind s = .accept ∧ ∃ a r, runCommand s = .next (respond a r s) ∧
      nonconforming (respond a r s) = false ∧ t = settle true true (respond a r s)) := by
  unfold step at h
  split at h
  · rename_i hk
    exact .inl ⟨hk, by cases h; rfl⟩
  · rename_i hk
    refine .inr (.inl ⟨hk, ?_, h⟩)
    unfold powerUpEdge at h
    split at h
    · cases h
    · exact Bool.eq_false_iff.mpr ‹_›
  · rename_i hk
    exact .inr (.inr (.inl ⟨hk, closeEdge_next.mp h⟩))
  · rename_i hk
    obtain ⟨a, r, hr⟩ := runCommand_answers s
    rw [hr] at h
    exact .inr (.inr (.inr ⟨hk, a, r, hr, closeEdge_next.mp h⟩))

end Sys2Proof.Machine
end

