-- ==== Sys2Proof/Laws/Words.lean ====
section
/-! SUPPORT. The fields of a command word, taken apart and put together (30_encoding.md R60, R63). -/

namespace Sys2Proof

/-- The fields of a word with one 64-bit operand. -/
theorem fields_of_operand_word (op len : BitVec 4) (x : BitVec 64) :
    opField (op ++ len ++ x) = op ∧ lenField (op ++ len ++ x) = len ∧ operandField (op ++ len ++ x) = x := by
  refine ⟨?_, ?_, ?_⟩ <;> apply BitVec.eq_of_getElem_eq <;> intro k hk <;>
    simp only [opField, lenField, operandField, BitVec.getElem_extractLsb', BitVec.getLsbD_append]
  · simp [show ¬ 68 + k < 64 by omega, show ¬ 68 + k - 64 < 4 by omega, show 68 + k - 64 - 4 = k by omega,
      BitVec.getLsbD_eq_getElem hk]
  · simp [hk, show ¬ 64 + k < 64 by omega]
  · simp [hk]

/-- The fields of a word whose operand is a reserved half-word over six bytes. -/
theorem fields_of_bytes_word (op len : BitVec 4) (hi : BitVec 16) (b : BitVec 48) :
    opField (op ++ len ++ hi ++ b) = op ∧ lenField (op ++ len ++ hi ++ b) = len ∧
    operandHiField (op ++ len ++ hi ++ b) = hi ∧ bytesField (op ++ len ++ hi ++ b) = b := by
  refine ⟨?_, ?_, ?_, ?_⟩ <;> apply BitVec.eq_of_getElem_eq <;> intro k hk <;>
    simp only [opField, lenField, operandHiField, bytesField, BitVec.getElem_extractLsb', BitVec.getLsbD_append]
  · simp [show ¬ 68 + k < 48 by omega, show ¬ 68 + k - 48 < 16 by omega, show ¬ 68 + k - 48 - 16 < 4 by omega,
      show 68 + k - 48 - 16 - 4 = k by omega, BitVec.getLsbD_eq_getElem hk]
  · simp [hk, show ¬ 64 + k < 48 by omega, show ¬ 64 + k - 48 < 16 by omega, show 64 + k - 48 - 16 = k by omega]
  · simp [hk, show ¬ 48 + k < 48 by omega]
  · simp [hk]

/-- A word is its three fields. -/
theorem word_eq_fields (w : Cmd) : opField w ++ lenField w ++ operandField w = w := by
  apply BitVec.eq_of_getElem_eq
  intro k hk
  simp only [opField, lenField, operandField, BitVec.getElem_append, BitVec.getElem_extractLsb']
  split
  · simp [BitVec.getLsbD_eq_getElem hk]
  · split
    · simp [show 64 + (k - 64) = k by omega, BitVec.getLsbD_eq_getElem hk]
    · simp [show 68 + (k - 64 - 4) = k by omega, BitVec.getLsbD_eq_getElem hk]

/-- The operand field is its two parts. -/
theorem operandField_eq (w : Cmd) : operandField w = operandHiField w ++ bytesField w := by
  apply BitVec.eq_of_getLsbD_eq
  intro k hk
  simp only [operandField, operandHiField, bytesField, BitVec.getLsbD_append, BitVec.getLsbD_extractLsb']
  split
  · simp [*]
  · simp [hk, show k - 48 < 16 by omega, show 48 + (k - 48) = k by omega]

end Sys2Proof
end

