-- ==== Sys2Proof/Laws/PerInstr.lean ====
section
/-! SUPPORT. Facts about each command as syntax, one lemma a constructor: the fields of its word are its own. -/

namespace Sys2Proof.Laws.Fields

/-- Reading the word of a command by its opcode gives the command back, its reserved fields among its fields
(30_encoding.md R60 to R63). -/
def Statement (i : Instr) : Prop := parse (encode i) = some i

theorem pack (len : BitVec 4) (operand : F64) : Statement (.pack len operand) := by
  obtain ⟨h1, h2, h3⟩ := fields_of_operand_word 0x1#4 len operand
  simp [Statement, parse, encode, h1, h2, h3]

theorem encode (len : BitVec 4) (operandHi : BitVec 16) (bytes : U48) :
    Statement (.encode len operandHi bytes) := by
  obtain ⟨h1, h2, h3, h4⟩ := fields_of_bytes_word 0x2#4 len operandHi bytes
  simp [Statement, parse, Sys2Proof.encode, h1, h2, h3, h4]

theorem gen (len : BitVec 4) (operand : F64) : Statement (.gen len operand) := by
  obtain ⟨h1, h2, h3⟩ := fields_of_operand_word 0x3#4 len operand
  simp [Statement, parse, Sys2Proof.encode, h1, h2, h3]

theorem genNow (len : BitVec 4) (operand : BitVec 64) : Statement (.genNow len operand) := by
  obtain ⟨h1, h2, h3⟩ := fields_of_operand_word 0x4#4 len operand
  simp [Statement, parse, Sys2Proof.encode, h1, h2, h3]

end Sys2Proof.Laws.Fields
end

