-- ==== Sys2Proof/Laws/Run.lean ====
section
/-! SUPPORT. Running the machine for several edges, one edge at a time. -/

namespace Sys2Proof.Machine

/-- No edge leaves the state as it is. -/
theorem runEdges_zero {s t : State} : runEdges 0 s = .next t ↔ s = t := by simp [runEdges]

/-- One edge and then the rest. -/
theorem runEdges_succ {n : Nat} {s t : State} :
    runEdges (n + 1) s = .next t ↔ ∃ u, step s = .next u ∧ runEdges n u = .next t := by
  rw [runEdges]
  cases h : step s <;> simp

end Sys2Proof.Machine
end

