-- ==== Sys2Proof/Tests/Slice0.lean ====
section
/-! SUPPORT. The model's own tests: ill-formed commands, words written out bit by bit, one or two vectors of
95_test_vectors.md an instruction, single steps, and for every statement with hypotheses a witness that meets them. -/

namespace Sys2Proof.Tests

open Sys2Proof.Machine

/-! ## Helpers -/

/-- A block that has been reset and idles, with concrete parameters. -/
def quiet (latency maxOutstanding : Nat) : State :=
  { alphabet := alphabetTable, outstanding := [], pins := .idle, script := []
    out := { cmdReady := true, rspValid := false, rspStatus := 0, rspResult := 0 }
    record := .empty, params := { latency := latency, maxOutstanding := maxOutstanding }
    phase := .operating, stall := 0, tick := 1 }

/-- The input ports with a word presented and the clock at 1.7e12 milliseconds. -/
def presented (w : Cmd) : InputPorts := { InputPorts.idle with cmdValid := true, cmd := w, nowMs := 0x4278BCFE56800000 }

/-- A block that idles but for one word presented. -/
def asked (latency maxOutstanding : Nat) (w : Cmd) : State := { quiet latency maxOutstanding with pins := presented w }

/-- An outstanding command of a given age. -/
def held (w : Cmd) (age : Nat) : Pending :=
  { entry := acceptedOf w 0x4278BCFE56800000, rsp := execWord alphabetTable w 0x4278BCFE56800000, age := age }

/-- A block of latency 2 with two commands outstanding, a GEN_NOW that is due and an ENCODE of 5 bytes behind it, and one
response taken before. -/
def busy : State :=
  { quiet 2 3 with
    outstanding := [held 0x400000000000000000 2, held 0x2500000123456789AB 1]
    record :=
      { accepted := [(held 0x303FF0000000000000 0).entry, (held 0x400000000000000000 0).entry,
          (held 0x2500000123456789AB 0).entry]
        taken := [{ status := 0, result := 0x4141414141414142 }] } }

/-- A block before its first reset edge. -/
def unreset : State := { quiet 1 1 with phase := .beforeReset }

/-- A block that holds a response with the reserved status 3. -/
def broken : State :=
  { quiet 1 2 with
    outstanding := [{ entry := { cmd := 0, sample := none }, rsp := { status := 3, result := 0 }, age := 1 }] }

/-- The status and the result of the newest command of an outcome. -/
def answered (o : Host.Outcome State Fault Refusal) : Option (BitVec 2 × BitVec 64) :=
  (newest o).map fun x => (x.2.status, x.2.result)

/-- The response port after an outcome, if it carries a response. -/
def port (o : Host.Outcome State Fault Refusal) : Option (BitVec 2 × BitVec 64) :=
  match o with
  | .next t => if t.out.rspValid then some (t.out.rspStatus, t.out.rspResult) else none
  | .fault _ => none
  | .refused _ => none

/-- The next state of an outcome that has one. -/
def nextOr (s : State) (o : Host.Outcome State Fault Refusal) : State :=
  match o with
  | .next t => t
  | .fault _ => s
  | .refused _ => s

/-! ## Ill-formed commands, one for each check of WellFormed -/

theorem test_ill_formed_pack_len : (Instr.pack 1 0).wellFormed = false := by decide
theorem test_ill_formed_encode_operand : (Instr.encode 6 0x8000 0).wellFormed = false := by decide
theorem test_ill_formed_gen_len : (Instr.gen 6 0).wellFormed = false := by decide
theorem test_ill_formed_genNow_len : (Instr.genNow 2 0).wellFormed = false := by decide
theorem test_ill_formed_genNow_operand : (Instr.genNow 0 1).wellFormed = false := by decide
theorem test_encode_of_five_bytes_is_well_formed : (Instr.encode 5 0 0x0123456789AB).wellFormed = true := by decide

/-! ## Words written out bit by bit: OP in bits 71 to 68, LEN in 67 to 64, OPERAND in 63 to 0 (30_encoding.md R60 to R63) -/

theorem test_bits_of_pack : decode 0b000100001011111111111000000000000000000000000000000000000000000000000000 =
    .instr (.pack 0 0xBFF8000000000000) := by decide
theorem test_bits_of_encode : decode 0b001001100000000000000000000000010010001101000101011001111000100110101011 =
    .instr (.encode 6 0 0x0123456789AB) := by decide
theorem test_bits_of_encode_of_fifteen : decode 0b001011110000000000000000100000000000000000000000000000000000000000000000 =
    .instr (.encode 15 0 0x800000000000) := by decide
theorem test_bits_of_gen : decode 0b001100000011111111110000000000000000000000000000000000000000000000000001 =
    .instr (.gen 0 0x3FF0000000000001) := by decide
theorem test_bits_of_genNow : decode 0b010000000000000000000000000000000000000000000000000000000000000000000000 =
    .instr (.genNow 0 0) := by decide

/-! Illegal words, one for each item of 30_encoding.md R65 and at the ends of its ranges (95_test_vectors.md). -/

theorem test_illegal_opcode_0 : decode 0x000000000000000000 = .illegal (.opcode 0) ∧ IllegalSet 0x000000000000000000 := by decide
theorem test_illegal_opcode_5 : decode 0x500000000000000000 = .illegal (.opcode 5) ∧ IllegalSet 0x500000000000000000 := by decide
theorem test_illegal_opcode_15 : decode 0xFFFFFFFFFFFFFFFFFF = .illegal (.opcode 15) ∧ IllegalSet 0xFFFFFFFFFFFFFFFFFF := by decide
theorem test_illegal_pack_len : decode 0x113FF0000000000000 = .illegal (.reservedLen) ∧ IllegalSet 0x113FF0000000000000 := by decide
theorem test_illegal_gen_len : decode 0x360000000000000000 = .illegal (.reservedLen) ∧ IllegalSet 0x360000000000000000 := by decide
theorem test_illegal_encode_operand_48 : decode 0x2600010123456789AB = .illegal (.reservedOperand) ∧ IllegalSet 0x2600010123456789AB := by decide
theorem test_illegal_encode_operand_63 : decode 0x258000000000000000 = .illegal (.reservedOperand) ∧ IllegalSet 0x258000000000000000 := by decide
theorem test_illegal_genNow_operand : decode 0x400000000000000001 = .illegal (.reservedOperand) ∧ IllegalSet 0x400000000000000001 := by decide
theorem test_illegal_genNow_len : decode 0x420000000000000000 = .illegal (.reservedLen) ∧ IllegalSet 0x420000000000000000 := by decide

/-! The words are numbered as the opcode table numbers them (30_encoding.md R74). -/

theorem test_table_word : decodeTableWord 72 0x2600000123456789AB = some (.encode 6 0 0x0123456789AB) := by decide
theorem test_table_word_illegal : decodeTableWord 72 0x500000000000000000 = none := by decide

/-! ## The instructions, on vectors of 95_test_vectors.md sections 2 to 6 -/

/-- Section 2: -0.5 floors to -1. -/
theorem test_pack_floors_down : answered (exec (.pack 0 0xBFE0000000000000) (quiet 1 1)) = some (0, 0x0000FFFFFFFFFFFF) := by
  decide
/-- Section 2: 2^100 - 2^47 keeps bit 47. -/
theorem test_pack_is_exact_far_out : answered (exec (.pack 0 0x462FFFFFFFFFFFFF) (quiet 1 1)) = some (0, 0x0000800000000000) := by
  decide
/-- Section 3: sextets 4, 35, 17, 22, 30, 9, 42, 60. -/
theorem test_encode : answered (exec (.encode 6 0 0x123456789ABC) (quiet 1 1)) = some (0, 0x456A5257654A7138) := by decide
/-- Section 3: a length of 15. -/
theorem test_encode_bad_length : answered (exec (.encode 15 0 0x0123456789AB) (quiet 1 1)) = some (1, 0) := by decide
/-- Section 4: 64 carries into sextet 6. -/
theorem test_gen : answered (exec (.gen 0 0x4050000000000000) (quiet 1 1)) = some (0, 0x4141414141414241) := by decide
/-- Section 4: GEN with LEN 6. -/
theorem test_gen_reserved_len : answered (exec (.gen 6 0) (quiet 1 1)) = some (2, 0) := by decide
/-- Section 5: the sample 1.7e12. -/
theorem test_genNow : answered (exec (.genNow 0 0) (asked 1 1 0)) = some (0, 0x4159765035576741) := by decide
/-- Section 5: an illegal GEN_NOW samples nothing. -/
theorem test_genNow_illegal_samples_nothing :
    newest (exec (.genNow 0 1) (asked 1 1 0)) =
      some ({ cmd := 0x400000000000000001, sample := none }, { status := 2, result := 0 }) := by decide
/-- Section 6: the word of an undriven bus is answered too. -/
theorem test_undriven_bus : answered (runCommand (asked 1 1 0)) = some (2, 0) := by decide

/-! ## Steps (10_state.md R27; 70_reset_and_hazards.md sections 1 and 4) -/

/-- A command accepted at latency 1 is not answered at its own edge, and is at the next. -/
theorem test_latency_one : port (step (asked 1 1 0x303FF0000000000000)) = none ∧
    port (runEdges 2 (asked 1 1 0x303FF0000000000000)) = some (0, 0x4141414141414142) := by decide +kernel
/-- At latency 0 it is answered at its own edge. -/
theorem test_latency_zero : port (step (asked 0 1 0x303FF0000000000000)) = some (0, 0x4141414141414142) := by decide +kernel
/-- The oldest response first. -/
theorem test_oldest_first : port (step busy) = some (0, 0x4159765035576741) := by decide +kernel
/-- `MAX_OUTSTANDING` commands outstanding, the oldest not taken: the block is not ready. -/
theorem test_full : cmdReady { quiet 3 1 with outstanding := [held 0x400000000000000000 1] } = false := by decide
/-- A reset edge takes no response and drops what is outstanding. -/
theorem test_reset_edge : (nextOr busy (step { busy with pins := { busy.pins with rst := true } })).outstanding = [] := by
  decide +kernel
/-- A command presented before the first reset has no meaning. -/
theorem test_unreset : step { unreset with pins := presented 0x303FF0000000000000 } = .refused .beforeFirstReset := rfl
/-- A held status 3 is a fault. -/
theorem test_broken : step broken = .fault .nonconformingStatus := rfl

/-! ## The assembler and the oracle (30_encoding.md R71, R72; 95_test_vectors.md sections 2, 7 and 8) -/

theorem test_read_packi : (readLine "PACKI   1700000000000            ; a comment".toList).bind assemble =
    some 0x104278BCFE56800000 := by decide +kernel
theorem test_read_decimal : (readLine "PACK 1.9999".toList).bind assemble = some 0x103FFFFF972474538F := by decide +kernel
theorem test_read_encode : (readLine "ENCODE 5, 0x0123456789AB".toList).bind assemble = some 0x2500000123456789AB := by
  decide +kernel
theorem test_print_word72 : disassembleText 0x420000000000000000 = ".word72 0x420000000000000000".toList := by
  decide +kernel
theorem test_decode48 : decode48 0x4159765035576741 = some 0x018BCFE56800 := by decide +kernel
theorem test_decode48_no_padding : decode48 0x414141414141413D = none := by decide +kernel

/-! ## Witnesses: for each statement with hypotheses, a state and operands that meet them all. Statements without
hypotheses have no witness here; where such a statement has an `if` or an equivalence, each side has one. -/

/-- `busy` meets the invariant of the machine. -/
theorem test_busy_inv : MachineInv busy :=
  ⟨rfl, by decide, by decide, by decide, by decide, by decide, by decide, by decide⟩

/-- So does an idle one, at latency 1 and at latency 0. -/
theorem test_quiet_inv : MachineInv (quiet 1 1) ∧ MachineInv (quiet 0 1) :=
  ⟨⟨rfl, by decide, by decide, by decide, by decide, by decide, by decide, by decide⟩,
   ⟨rfl, by decide, by decide, by decide, by decide, by decide, by decide, by decide⟩⟩

/-- And a block with a word presented. -/
theorem test_asked_inv : MachineInv (asked 1 1 0x303FF0000000000000) ∧ MachineInv (asked 0 1 0x303FF0000000000000) :=
  ⟨⟨rfl, by decide, by decide, by decide, by decide, by decide, by decide, by decide⟩,
   ⟨rfl, by decide, by decide, by decide, by decide, by decide, by decide, by decide⟩⟩

/-- And one before its first reset. -/
theorem test_unreset_inv : MachineInv { unreset with pins := presented 0x303FF0000000000000 } :=
  ⟨rfl, by decide, by decide, by decide, by decide, by decide, by decide, by decide⟩

theorem test_witness_DecodeOfEncodeIsTheCommand :
    (Instr.pack 0 0xFFFFFFFFFFFFFFFF).wellFormed = true ∧ (Instr.encode 15 0 0xFFFFFFFFFFFF).wellFormed = true ∧
    (Instr.gen 0 0xFFFFFFFFFFFFFFFF).wellFormed = true ∧ (Instr.genNow 0 0).wellFormed = true := by decide
theorem test_witness_EncodeOfDecodeIsTheWord : decode 0x2F0000FFFFFFFFFFFF = .instr (.encode 15 0 0xFFFFFFFFFFFF) := by
  decide
theorem test_witness_DecoderRefusesTheIllegalSet :
    IllegalSet 0x110000000000000000 ∧ ¬ IllegalSet 0x10FFFFFFFFFFFFFFFF := by decide
theorem test_witness_DecoderAgreesWithOpcodeTable :
    (∃ r ∈ tableRows, r.covers 0x2F0000FFFFFFFFFFFF = true) ∧ ∀ r ∈ tableRows, r.covers 0x400000000000000001 = false := by
  decide
/-- The command is accepted, both where the step goes on and where it stops on a held status 3. -/
theorem test_witness_StepRunsTheDecodedCommand :
    (∀ s ∈ [asked 1 1 0x303FF0000000000000, { broken with pins := presented 0x303FF0000000000000 }],
      s.pins.rst = false ∧ s.phase = .operating ∧ s.pins.cmdValid = true ∧ cmdReady s = true ∧
      decode s.pins.cmd = .instr (.gen 0 0x3FF0000000000000)) ∧
    nonconforming (nextOr broken (exec (.gen 0 0x3FF0000000000000) (quiet 1 1))) = false ∧
    nonconforming (nextOr broken (exec (.gen 0 0x3FF0000000000000) broken)) = true := by
  refine ⟨?_, by decide, by decide⟩
  intro s hs
  simp only [List.mem_cons, List.not_mem_nil, or_false] at hs
  obtain rfl | rfl := hs <;> decide
theorem test_witness_FetchedWordIsRunNext : decodeTableWord 72 0x400000000000000000 = some (.genNow 0 0) := by decide
/-- An infinity, a NaN, and 2^100 itself. -/
theorem test_witness_PackAnswers :
    biasedExponent 0xFFF0000000000000 = 0x7FF#11 ∧ biasedExponent 0x7FF0000000000001 = 0x7FF#11 ∧
    isFinite 0x4630000000000000 = true ∧ 2 ^ 100 ≤ |value 0x4630000000000000| := by decide +kernel
theorem test_witness_EncodeAnswers : RomIntact (quiet 1 1) := rfl
theorem test_witness_GenAnswers : RomIntact busy ∧ isFinite 0x7FF0000000000000 = false := ⟨rfl, by decide⟩
/-- A clock held at a value, one that moves, and negative times of which the second is a multiple of 2^48. -/
theorem test_witness_GenNowAnswers :
    RomIntact (asked 1 1 0) ∧ (asked 1 1 0).pins.nowHeld = true ∧ isFinite 0xFFF8000000000000 = false ∧
    isFinite 0xBFF0000000000000 = true ∧ value 0xBFF0000000000000 = -(1 : Nat) ∧
    isFinite 0xC2F0000000000000 = true ∧ value 0xC2F0000000000000 = -(2 ^ 48 : Nat) := by
  refine ⟨rfl, rfl, ?_⟩
  decide +kernel
theorem test_witness_NumericInputsAreNormalizedNotRejected :
    RomIntact (quiet 1 1) ∧ isFinite 0x7FF8000000000000 = false ∧ isFinite 0x7FEFFFFFFFFFFFFF = true := ⟨rfl, by decide, by decide⟩
/-- The one operand pattern and the lengths on either side of 6 raise InvalidLength, 6 does not. -/
theorem test_witness_InvalidLengthExactly :
    answered (runCommand (asked 1 1 0x2500000123456789AB)) = some (1, 0) ∧
    answered (runCommand (asked 1 1 0x2600000123456789AB)) = some (0, 0x41534E465A346D72) ∧
    answered (runCommand (asked 1 1 0x2700000123456789AB)) = some (1, 0) := by decide
theorem test_witness_IllegalCommandExactly :
    answered (runCommand (asked 1 1 0x500000000000000000)) = some (2, 0) ∧ IllegalSet 0x500000000000000000 ∧
    answered (runCommand (asked 1 1 0x103FF0000000000000)) = some (0, 1) ∧ ¬ IllegalSet 0x103FF0000000000000 := by decide
theorem test_witness_IllegalCommandWins :
    (0x258000000000000000 : Cmd).extractLsb' 68 4 = 0x2#4 ∧ (0x258000000000000000 : Cmd).extractLsb' 48 16 ≠ 0#16 ∧
    (0x258000000000000000 : Cmd).extractLsb' 64 4 ≠ 6#4 := by decide
/-- Two states that differ in all but the ROM and the clock. -/
theorem test_witness_ResponseDependsOnCommandAndSampleOnly :
    (asked 1 1 0).alphabet = { busy with pins := presented 0 }.alphabet ∧
    sampleNow (asked 1 1 0) = sampleNow { busy with pins := presented 0 } ∧
    asked 1 1 0 ≠ { busy with pins := presented 0 } := by decide
theorem test_witness_AcceptedCommandIsAnsweredByExec :
    RomIntact (asked 1 1 0x500000000000000000) ∧ edgeKind (asked 1 1 0x500000000000000000) = .accept ∧
    samplesNow 0x400000000000000001 = false ∧ samplesNow 0x400000000000000000 = true := ⟨rfl, by decide, by decide, by decide⟩
theorem test_witness_StepKeepsInvariant : MachineInv busy ∧ ∃ t, step busy = .next t := ⟨test_busy_inv, _, rfl⟩
theorem test_witness_ResetEdgeEstablishesInvariant :
    RomIntact { unreset with pins := { InputPorts.idle with rst := true } } ∧ ParamsInRange unreset.params ∧
    ({ unreset with pins := { InputPorts.idle with rst := true } } : State).pins.rst = true := ⟨rfl, by decide, rfl⟩
/-- Both ends of the choice: a next state, and the refusal. -/
theorem test_witness_StepAnswersFromInvariant :
    (MachineInv busy ∧ ∃ t, step busy = .next t) ∧
    MachineInv { unreset with pins := presented 0x303FF0000000000000 } ∧
    step { unreset with pins := presented 0x303FF0000000000000 } = .refused .beforeFirstReset :=
  ⟨test_witness_StepKeepsInvariant, test_unreset_inv, rfl⟩
theorem test_witness_AlphabetIsHardwired :
    (∃ t, step { busy with pins := { InputPorts.idle with rst := true } } = .next t) ∧
    opField (asked 1 1 0x103FF0000000000000).pins.cmd = 0x1#4 ∧
    (execWord alphabetTable (asked 1 1 0x2500000123456789AB).pins.cmd 0).status ≠ 0#2 := ⟨⟨_, rfl⟩, by decide, by decide⟩
/-- The clause about a step: an edge that takes a response, one that accepts, and one that does both. -/
theorem test_witness_AlphabetIsHardwired_step :
    (∃ t, step busy = .next t ∧ t.out.rspValid = true) ∧
    (∃ t, step (asked 1 1 0x303FF0000000000000) = .next t ∧ t.record.accepted ≠ []) ∧
    ∃ t, step (asked 0 1 0x303FF0000000000000) = .next t ∧ t.out.rspValid = true ∧ t.record.accepted ≠ [] :=
  ⟨⟨_, rfl, rfl⟩, ⟨_, rfl, by decide⟩, _, rfl, rfl, by decide⟩
theorem test_witness_ParametersAreConstant : ∃ t, step busy = .next t := ⟨_, rfl⟩
theorem test_witness_ResetEdgeDiscards :
    ({ busy with pins := { presented 0x303FF0000000000000 with rst := true } } : State).pins.rst = true := rfl
theorem test_witness_ResponsesFollowAcceptanceOrder : MachineInv busy ∧ ∃ t, runEdges 3 busy = .next t :=
  ⟨test_busy_inv, _, rfl⟩
/-- An edge that accepts, and one that does not. -/
theorem test_witness_AnswersAreNeverChanged :
    (∃ t, step (asked 1 1 0x303FF0000000000000) = .next t) ∧ edgeKind (asked 1 1 0x303FF0000000000000) = .accept ∧
    (∃ t, step busy = .next t) ∧ edgeKind busy = .idle ∧ busy.pins.rst = false := ⟨⟨_, rfl⟩, by decide, ⟨_, rfl⟩, by decide, rfl⟩

/-- A host that is not ready. -/
def slow (s : State) : State :=
  { s with pins := { s.pins with rspReady := false }, script := [{ s.pins with rspReady := false }] }

theorem test_witness_ResponseIsHeldUntilTaken :
    MachineInv (slow busy) ∧ (slow busy).phase = .operating ∧ (slow busy).pins.rst = false ∧
    (slow busy).pins.rspReady = false ∧ (slow busy).params.latency ≠ 0 ∧
    ∃ t u, step (slow busy) = .next t ∧ t.out.rspValid = true ∧ t.pins.rst = false ∧ step t = .next u :=
  ⟨⟨rfl, by decide, by decide, by decide, by decide, by decide, by decide, by decide⟩, rfl, rfl, rfl, by decide,
   _, _, rfl, rfl, rfl, rfl⟩
/-- The same at latency 0, where the host holds its command. -/
theorem test_witness_ResponseIsHeldUntilTaken_zero :
    MachineInv (slow (asked 0 1 0x400000000000000000)) ∧
    ∃ t u, step (slow (asked 0 1 0x400000000000000000)) = .next t ∧ t.out.rspValid = true ∧ t.pins.rst = false ∧
      t.pins.cmdValid = true ∧ t.pins.cmd = 0x400000000000000000 ∧
      sampleNow t = sampleNow (slow (asked 0 1 0x400000000000000000)) ∧ step t = .next u :=
  ⟨⟨rfl, by decide, by decide, by decide, by decide, by decide, by decide, by decide⟩,
   _, _, rfl, rfl, rfl, rfl, rfl, rfl, rfl⟩
/-- One response is due at this edge and the other is not yet. -/
theorem test_witness_ResponseComesAfterLatency :
    MachineInv busy ∧ busy.phase = .operating ∧ busy.pins.rst = false ∧ busy.pins.rspReady = true ∧
    1 ≤ busy.params.latency ∧ (∀ p ∈ busy.outstanding, p.age ≤ busy.params.latency) ∧
    (∃ p ∈ busy.outstanding, p.age = busy.params.latency) ∧ ∃ t, step busy = .next t :=
  ⟨test_busy_inv, rfl, rfl, rfl, by decide, by decide, by decide, _, rfl⟩
/-- `busy` with a GEN of 1 presented: it is accepted behind two others and answered two edges later. -/
def busyAsked : State := { busy with pins := presented 0x303FF0000000000000 }

/-- The clause that counts edges, at latency 2, and the command accepted at the edge of the first clause. -/
theorem test_witness_ResponseComesAfterLatency_counted :
    MachineInv (advanceMany 0 busyAsked) ∧ (advanceMany 0 busyAsked).phase = .operating ∧
    1 ≤ (advanceMany 0 busyAsked).params.latency ∧
    (∀ p ∈ (advanceMany 0 busyAsked).outstanding, p.age ≤ (advanceMany 0 busyAsked).params.latency) ∧
    (∀ k ≤ (advanceMany 0 busyAsked).params.latency,
      (advanceMany k busyAsked).pins.rst = false ∧ (advanceMany k busyAsked).pins.rspReady = true ∧
      step (advanceMany k busyAsked) = .next (advanceMany (k + 1) busyAsked)) ∧
    edgeKind (advanceMany 0 busyAsked) = .accept ∧
    port (step (advanceMany 2 busyAsked)) = some (0, 0x4141414141414142) := by
  refine ⟨⟨rfl, by decide, by decide, by decide, by decide, by decide, by decide, by decide⟩, rfl, by decide, by decide, ?_,
    by decide, by decide +kernel⟩
  intro k hk
  change k ≤ 2 at hk
  obtain rfl | rfl | rfl : k = 0 ∨ k = 1 ∨ k = 2 := by omega
  all_goals exact ⟨rfl, rfl, rfl⟩
theorem test_witness_ZeroLatencyIsCombinational :
    MachineInv (asked 0 1 0x303FF0000000000000) ∧ (asked 0 1 0x303FF0000000000000).phase = .operating ∧
    (asked 0 1 0x303FF0000000000000).pins.rst = false ∧ (asked 0 1 0x303FF0000000000000).params.latency = 0 ∧
    (asked 0 1 0x303FF0000000000000).pins.cmdValid = true ∧ ∃ t, step (asked 0 1 0x303FF0000000000000) = .next t :=
  ⟨test_asked_inv.2, rfl, rfl, rfl, rfl, _, rfl⟩
theorem test_witness_AcceptedCommandIsAnsweredInBoundedTime :
    MachineInv busy ∧ busy.phase = .operating ∧ NoResetAhead busy ∧
    busy.outstanding = [held 0x400000000000000000 2, held 0x2500000123456789AB 1] ∧
    busy.params.latency ≤ (held 0x400000000000000000 2).age ∧ busy.pins.rst = false ∧ busy.pins.rspReady = true ∧
    ∃ t, step busy = .next t :=
  ⟨test_busy_inv, rfl, by decide, rfl, by decide, rfl, rfl, _, rfl⟩

/-- A run without end in which the host is always ready: the one outstanding command is answered at the first edge, and
then nothing more is presented. -/
def restingRun : Nat → State
  | 0 =>
    { quiet 1 1 with
      outstanding := [held 0x303FF0000000000000 1]
      record := { accepted := [(held 0x303FF0000000000000 1).entry], taken := [] } }
  | k + 1 =>
    { quiet 1 1 with
      record := { accepted := [(held 0x303FF0000000000000 1).entry], taken := [(held 0x303FF0000000000000 1).rsp] }
      out := if k = 0 then outputs 1 true (some (held 0x303FF0000000000000 1).rsp) else outputs (k + 1) true none
      tick := k + 2 }

/-- The fourth clause, with a response still to be delivered. -/
theorem test_witness_AcceptedCommandIsAnsweredInBoundedTime_delivery :
    MachineInv (restingRun 0) ∧ (restingRun 0).phase = .operating ∧
    (∀ k, (restingRun k).pins.rst = false ∧ step (restingRun k) = .next (restingRun (k + 1))) ∧
    (∀ k, ∃ m, k ≤ m ∧ (restingRun m).pins.rspReady = true) ∧ answers (restingRun 0) ≠ [] := by
  refine ⟨⟨rfl, by decide, by decide, by decide, by decide, by decide, by decide, by decide⟩, rfl, ?_, ?_, by decide⟩
  · intro k
    cases k with
    | zero => exact ⟨rfl, rfl⟩
    | succ k => exact ⟨rfl, rfl⟩
  · intro k
    cases k with
    | zero => exact ⟨0, Nat.le_refl 0, rfl⟩
    | succ k => exact ⟨k + 1, Nat.le_refl (k + 1), rfl⟩
/-- Held low for three more edges with two of three places taken, and not at all with none outstanding. -/
theorem test_witness_ReadyWithinFinitelyManyEdges :
    (MachineInv { busy with stall := 3 } ∧ ({ busy with stall := 3 } : State).phase = .operating ∧
      NoResetAhead { busy with stall := 3 } ∧
      ({ busy with stall := 3 } : State).outstanding.length < ({ busy with stall := 3 } : State).params.maxOutstanding ∧
      ({ busy with stall := 3 } : State).outstanding ≠ []) ∧
    MachineInv (quiet 0 1) ∧ (quiet 0 1).phase = .operating ∧ NoResetAhead (quiet 0 1) ∧
    (quiet 0 1).outstanding.length < (quiet 0 1).params.maxOutstanding :=
  ⟨⟨⟨rfl, by decide, by decide, by decide, by decide, by decide, by decide, by decide⟩, rfl, by decide, by decide,
    by decide⟩, test_quiet_inv.2, rfl, by decide, by decide⟩
/-- An edge that accepts and takes nothing, one that takes and accepts nothing, and one that does both. -/
theorem test_witness_HandshakeIsOnThePorts :
    (MachineInv (asked 1 1 0x303FF0000000000000) ∧ (asked 1 1 0x303FF0000000000000).phase = .operating ∧
      (asked 1 1 0x303FF0000000000000).pins.rst = false ∧ ∃ t, step (asked 1 1 0x303FF0000000000000) = .next t ∧
        (asked 1 1 0x303FF0000000000000).pins.cmdValid = true ∧ t.out.cmdReady = true ∧ t.out.rspValid = false) ∧
    (MachineInv busy ∧ busy.phase = .operating ∧ busy.pins.rst = false ∧ ∃ t, step busy = .next t ∧
      busy.pins.cmdValid = false ∧ t.out.rspValid = true ∧ busy.pins.rspReady = true) ∧
    MachineInv (asked 0 1 0x303FF0000000000000) ∧ ∃ t, step (asked 0 1 0x303FF0000000000000) = .next t ∧
      t.out.cmdReady = true ∧ t.out.rspValid = true :=
  ⟨⟨test_asked_inv.1, rfl, rfl, _, rfl, rfl, rfl, rfl⟩, ⟨test_busy_inv, rfl, rfl, _, rfl, rfl, rfl, rfl⟩,
   test_asked_inv.2, _, rfl, rfl, rfl⟩
/-- An edge that accepts nothing, one that accepts, and a reset edge. -/
theorem test_witness_PortIsSilentUntilFirstAcceptance :
    (∀ s ∈ [quiet 1 1, asked 1 1 0x303FF0000000000000, { quiet 1 1 with pins := { InputPorts.idle with rst := true } }],
      s.phase = .operating ∧ 1 ≤ s.params.latency ∧ s.outstanding = []) ∧
    (MachineInv (quiet 1 1) ∧ edgeKind (quiet 1 1) = .idle ∧ ∃ t, step (quiet 1 1) = .next t) ∧
    MachineInv (asked 1 1 0x303FF0000000000000) ∧ edgeKind (asked 1 1 0x303FF0000000000000) = .accept ∧
    ∃ t, step (asked 1 1 0x303FF0000000000000) = .next t := by
  refine ⟨?_, ⟨test_quiet_inv.1, by decide, _, rfl⟩, test_asked_inv.1, by decide, _, rfl⟩
  intro s hs
  simp only [List.mem_cons, List.not_mem_nil, or_false] at hs
  obtain rfl | rfl | rfl := hs <;> decide

/-- A GEN_NOW presented while the block is not ready for one more edge, and held. -/
def waiting : State :=
  { asked 1 1 0x400000000000000000 with stall := 1, script := [presented 0x400000000000000000] }

/-- The wait of one edge, and then the edge that accepts. -/
theorem test_witness_PresentedCommandIsTheOneAccepted :
    (∀ k ≤ 1, step (advanceMany k waiting) = .next (advanceMany (k + 1) waiting) ∧
      HostObeys (advanceMany k waiting) (advanceMany (k + 1) waiting)) ∧
    (advanceMany 0 waiting).pins.cmdValid = true ∧ (∀ k < 1, edgeKind (advanceMany k waiting) = .idle) ∧
    edgeKind (advanceMany 1 waiting) = .accept := by
  refine ⟨?_, rfl, ?_, by decide⟩
  · intro k hk
    obtain rfl | rfl : k = 0 ∨ k = 1 := by omega
    · exact ⟨rfl, by decide⟩
    · exact ⟨rfl, by decide⟩
  · intro k hk
    obtain rfl : k = 0 := by omega
    decide
theorem test_witness_NoMeaningBeforeFirstReset :
    unreset.phase = .beforeReset ∧ unreset.pins.rst = false ∧ unreset.pins.cmdValid = false ∧
    ({ unreset with pins := presented 0 } : State).pins.cmdValid = true := by decide
/-- A response shown with status 0, and one with status 1. -/
theorem test_witness_StatusThreeIsNeverShown :
    MachineInv busy ∧ busy.phase = .operating ∧ port (step busy) = some (0, 0x4159765035576741) ∧
    port (runEdges 2 busy) = some (1, 0) := ⟨test_busy_inv, rfl, by decide +kernel, by decide +kernel⟩
/-- The largest finite value; a scale of 48 and one of -54, at the ends of the two shortcuts. -/
theorem test_witness_FloorIntIsExact :
    isFinite 0x7FEFFFFFFFFFFFFF = true ∧ isFinite 0x463FFFFFFFFFFFFF = true ∧ scale 0x463FFFFFFFFFFFFF = 48 ∧
    isFinite 0xBFDFFFFFFFFFFFFF = true ∧ scale 0xBFDFFFFFFFFFFFFF = -54 := by decide
theorem test_witness_FloorIntIsExact_not_finite : isFinite 0x7FF0000000000000 = false ∧ isFinite 0xFFFFFFFFFFFFFFFF = false := by
  decide
theorem test_witness_HugeValuesPackToZero :
    isFinite 0xFFEFFFFFFFFFFFFF = true ∧ 2 ^ 100 ≤ |value 0xFFEFFFFFFFFFFFFF| := by decide +kernel
theorem test_witness_NormalizeWraps : (-1 : Int) < 0 ∧ (-(2 : Int) ^ 48) < 0 := by decide
/-- The largest 48-bit value, and 0 under its two patterns. -/
theorem test_witness_InRangeIntegersPackToThemselves :
    isFinite 0x42EFFFFFFFFFFFE0 = true ∧ value 0x42EFFFFFFFFFFFE0 = (0xFFFFFFFFFFFF : U48).toNat ∧
    isFinite 0x8000000000000000 = true ∧ value 0x8000000000000000 = (0 : U48).toNat ∧ value 0 = (0 : U48).toNat := by
  decide +kernel
theorem test_witness_CharactersFollowTheByteFormulas : 0 < 8 ∧ 7 < 8 := by decide
theorem test_witness_BytesAreBigEndian : 0 < 6 ∧ 5 < 6 ∧ 0 < 8 ∧ 7 < 8 := by decide
theorem test_witness_GenIsEncodeOfPack : RomIntact busy := rfl
theorem test_witness_IndexStringsKeepOrder : (51 : U48) < 52 ∧ (0 : U48) < 0xFFFFFFFFFFFF := by decide
/-- The first of two blocks, with a schedule that runs both. -/
theorem test_witness_BlocksSideBySideAnswerAsAlone :
    [busy, unreset][0]? = some busy ∧ MachineInv busy ∧ NoResetAhead busy ∧ [0, 1, 1, 0].count 0 = 2 ∧ answers busy ≠ [] :=
  ⟨rfl, test_busy_inv, by decide, by decide, by decide⟩
/-- A word of a command, and one that differs from it in a reserved bit. -/
theorem test_witness_DisassemblyAssemblesBack :
    decode 0x2F0000FFFFFFFFFFFF = .instr (.encode 15 0 0xFFFFFFFFFFFF) ∧ IllegalSet 0x2F8000FFFFFFFFFFFF := by decide
/-- Both ends of the range, and one past each. -/
theorem test_witness_PseudoInstructionIntegersAreExact :
    ((2 : Int) ^ 53).natAbs ≤ 2 ^ 53 ∧ (-(2 : Int) ^ 53).natAbs ≤ 2 ^ 53 ∧ 2 ^ 53 < ((2 : Int) ^ 53 + 1).natAbs ∧
    2 ^ 53 < (-(2 : Int) ^ 53 - 1).natAbs := by decide

end Sys2Proof.Tests
end

section
/-! PROOFS. What an accepted command is answered by, whatever its opcode: `Exec` on its word and the clock
(10_state.md R28, 30_encoding.md R69). -/

namespace Sys2Proof

/-- A word that parses has one of the four opcodes, and its command has the fields of the word. -/
theorem parse_some {w : Cmd} {i : Instr} (h : parse w = some i) :
    (opField w = 0x1#4 ∧ i = .pack (lenField w) (operandField w)) ∨
    (opField w = 0x2#4 ∧ i = .encode (lenField w) (operandHiField w) (bytesField w)) ∨
    (opField w = 0x3#4 ∧ i = .gen (lenField w) (operandField w)) ∨
    (opField w = 0x4#4 ∧ i = .genNow (lenField w) (operandField w)) := by
  unfold parse at h
  split_ifs at h <;> simp_all

/-- A word that does not parse has none of the four opcodes. -/
theorem parse_none {w : Cmd} (h : parse w = none) :
    opField w ≠ 0x1#4 ∧ opField w ≠ 0x2#4 ∧ opField w ≠ 0x3#4 ∧ opField w ≠ 0x4#4 := by
  unfold parse at h
  split_ifs at h
  exact ⟨‹_›, ‹_›, ‹_›, ‹_›⟩

/-- A parsed command, its reserved fields included, has the word it was parsed from. -/
theorem encode_of_parse {w : Cmd} {i : Instr} (h : parse w = some i) : encode i = w := by
  have hw := word_eq_fields w
  rcases parse_some h with ⟨ho, rfl⟩ | ⟨ho, rfl⟩ | ⟨ho, rfl⟩ | ⟨ho, rfl⟩ <;> rw [ho] at hw
  · exact hw
  · rw [encode, BitVec.append_assoc, BitVec.cast_eq, ← operandField_eq, hw]
  · exact hw
  · exact hw

/-- The upper half-word of the operand is the reserved field of an ENCODE. -/
theorem operandField_extract_hi (w : Cmd) : (operandField w).extractLsb' 48 16 = operandHiField w := by
  rw [operandField_eq, BitVec.extractLsb'_append_eq_left]

/-- The rest of the operand is the six bytes of an ENCODE. -/
theorem operandField_extract_bytes (w : Cmd) : (operandField w).extractLsb' 0 48 = bytesField w := by
  rw [operandField_eq, BitVec.extractLsb'_append_eq_right]

/-- A word decodes to a command exactly when it parses to it and no reserved field is set. -/
theorem decode_eq_instr {w : Cmd} {i : Instr} :
    decode w = .instr i ↔ parse w = some i ∧ i.reservedField = none := by
  unfold decode
  cases parse w with
  | none => simp
  | some j =>
    cases hr : j.reservedField with
    | none => simpa [hr] using fun hj : j = i => hj ▸ hr
    | some why => simpa [hr] using fun hj : j = i => by simp [← hj, hr]

/-- A refused word has no opcode of a command, or a reserved field that is set. -/
theorem decode_illegal {w : Cmd} {why : IllegalWord} (h : decode w = .illegal why) :
    parse w = none ∨ ∃ i, parse w = some i ∧ i.reservedField = some why := by
  unfold decode at h
  split at h
  next hp => exact .inl hp
  next i hp =>
    split at h
    · cases h
    next hr =>
      cases h
      exact .inr ⟨i, hp, hr⟩

end Sys2Proof

namespace Sys2Proof.Machine

/-- The meaning of a parsed command, legal or not, answers its word by `Exec` on the word and the clock. -/
theorem exec_of_parse {s : State} {w : Cmd} {i : Instr} (h : parse w = some i) :
    exec i s = .next (respond (acceptedOf w (sampleNow s)) (execWord s.alphabet w (sampleNow s)) s) := by
  have hw := encode_of_parse h
  rcases parse_some h with ⟨ho, rfl⟩ | ⟨ho, rfl⟩ | ⟨ho, rfl⟩ | ⟨ho, rfl⟩
  · simp only [exec, execPack, hw, raise_eq_respond]
    split <;> simp [execWord, acceptedOf, samplesNow, *]
  · have hhi := operandField_extract_hi w
    have hlo := operandField_extract_bytes w
    simp only [exec, execEncode, hw, raise_eq_respond]
    split
    · simp [execWord, acceptedOf, samplesNow, *]
    · split <;> simp_all [execWord, acceptedOf, samplesNow]
  · simp only [exec, execGen, hw, raise_eq_respond]
    split <;> simp [execWord, acceptedOf, samplesNow, *]
  · simp only [exec, execGenNow, hw, raise_eq_respond]
    split
    next hl => rcases hl with hl | hl <;> simp [execWord, acceptedOf, samplesNow, *]
    next hl => simp_all [execWord, acceptedOf, samplesNow]

/-- A word the decoder refuses has the answer IllegalCommand by `Exec` and samples nothing. -/
theorem execWord_of_illegal {w : Cmd} {why : IllegalWord} (h : decode w = .illegal why)
    (rom : Vector Byte 64) (now : F64) :
    execWord rom w now = errorResponse .illegalCommand ∧ samplesNow w = false := by
  rcases decode_illegal h with hp | ⟨i, hp, hr⟩
  · obtain ⟨h1, h2, h3, h4⟩ := parse_none hp
    simp [execWord, samplesNow, h1, h2, h3, h4]
  · have hhi := operandField_extract_hi w
    rcases parse_some hp with ⟨ho, rfl⟩ | ⟨ho, rfl⟩ | ⟨ho, rfl⟩ | ⟨ho, rfl⟩ <;>
      simp only [Instr.reservedField] at hr <;> split_ifs at hr <;> simp_all [execWord, samplesNow]

/-- The command an edge accepts, legal or not, joins with its own sample and with `Exec` as its response. -/
theorem runCommand_eq_execWord (s : State) :
    runCommand s =
      .next (respond (acceptedOf s.pins.cmd (sampleNow s)) (execWord s.alphabet s.pins.cmd (sampleNow s)) s) := by
  unfold runCommand
  split
  next i h => exact exec_of_parse (decode_eq_instr.mp h).1
  next why h =>
    obtain ⟨hr, hs⟩ := execWord_of_illegal h s.alphabet (sampleNow s)
    rw [hr, raise_eq_respond, acceptedOf, hs]
    rfl

/-- The newest answer after the meaning of a command: its entry and `Exec` on it. -/
theorem newest_runCommand (s : State) :
    newest (runCommand s) =
      some (acceptedOf s.pins.cmd (sampleNow s), execWord s.alphabet s.pins.cmd (sampleNow s)) := by
  simp [runCommand_eq_execWord, newest]

end Sys2Proof.Machine
end

section
/-! PROOFS. What of an edge the alphabet ROM reaches: the result bits alone (10_state.md R23). The ROM and every result
are masked out of the state, and what a step leaves outside the mask is shown not to depend on what is under it. -/

namespace Sys2Proof.Machine

/-! ## `Exec` and the ROM -/

/-- `Exec` does not read the ROM, or the word is one of the encoder's, answered with status 0 whatever the ROM holds. -/
theorem execWord_rom (rom rom' : Vector Byte 64) (w : Cmd) (now : F64) :
    execWord rom' w now = execWord rom w now ∨
    (opField w ≠ 0x1#4 ∧ (execWord rom w now).status = statusOk ∧ (execWord rom' w now).status = statusOk) := by
  unfold execWord
  dsimp only
  split_ifs <;> simp_all [okResponse]

/-- The status `Exec` gives is that of the word, whatever the ROM holds. -/
theorem execWord_status (rom rom' : Vector Byte 64) (w : Cmd) (now : F64) :
    (execWord rom' w now).status = (execWord rom w now).status := by
  rcases execWord_rom rom rom' w now with h | ⟨-, h, h'⟩
  · rw [h]
  · rw [h, h']

/-- Without the encoder the ROM is not read: a PACK, and a command that is answered with an error. -/
theorem execWord_of_pack_or_error {rom : Vector Byte 64} {w : Cmd} {now : F64} (rom' : Vector Byte 64)
    (h : opField w = 0x1#4 ∨ (execWord rom w now).status ≠ 0#2) : execWord rom' w now = execWord rom w now := by
  rcases execWord_rom rom rom' w now with he | ⟨hop, hok, -⟩
  · exact he
  · exact absurd h (not_or.mpr ⟨hop, not_not.mpr hok⟩)

/-! ## The mask -/

/-- A response with its result masked out. -/
def Response.mask (r : Response) : Response := { r with result := 0 }

/-- An outstanding command with the result of its response masked out. -/
def Pending.mask (p : Pending) : Pending := { p with rsp := p.rsp.mask }

/-- The output ports with `RSP_RESULT` masked out. -/
def OutputPorts.mask (o : OutputPorts) : OutputPorts := { o with rspResult := 0 }

/-- The state with the ROM and every result masked out. -/
def State.mask (s : State) : State :=
  { s with
    alphabet := .replicate 64 0
    outstanding := s.outstanding.map Pending.mask
    out := s.out.mask
    record := { s.record with taken := s.record.taken.map Response.mask } }

/-- An outcome with its next state masked. -/
def maskOutcome : Host.Outcome State Fault Refusal → Host.Outcome State Fault Refusal
  | .next s => .next s.mask
  | .fault r => .fault r
  | .refused r => .refused r

@[simp] theorem Response.mask_mask (r : Response) : r.mask.mask = r.mask := rfl
@[simp] theorem Response.mask_status (r : Response) : r.mask.status = r.status := rfl
@[simp] theorem Pending.mask_mask (p : Pending) : p.mask.mask = p.mask := rfl
@[simp] theorem Pending.mask_entry (p : Pending) : p.mask.entry = p.entry := rfl
@[simp] theorem Pending.mask_rsp (p : Pending) : p.mask.rsp = p.rsp.mask := rfl
@[simp] theorem Pending.mask_age (p : Pending) : p.mask.age = p.age := rfl
@[simp] theorem Pending.older_mask (p : Pending) : p.mask.older = p.older.mask := rfl
@[simp] theorem OutputPorts.mask_mask (o : OutputPorts) : o.mask.mask = o.mask := rfl

@[simp] theorem State.mask_outstanding (s : State) : s.mask.outstanding = s.outstanding.map Pending.mask := rfl
@[simp] theorem State.mask_taken (s : State) : s.mask.record.taken = s.record.taken.map Response.mask := rfl
@[simp] theorem State.mask_pins (s : State) : s.mask.pins = s.pins := rfl
@[simp] theorem State.mask_params (s : State) : s.mask.params = s.params := rfl

@[simp] theorem State.mask_mask (s : State) : s.mask.mask = s.mask := by
  simp [State.mask, Function.comp_def]

/-- Two responses are alike under the mask exactly when their statuses agree. -/
theorem Response.mask_eq_mask {r r' : Response} : r.mask = r'.mask ↔ r.status = r'.status := by
  simp [Response.mask]

/-- The statuses taken are seen through the mask. -/
theorem State.mask_taken_status (s : State) :
    s.mask.record.taken.map Response.status = s.record.taken.map Response.status := by
  simp [Function.comp_def]

/-- What is outstanding, but for the results, is seen through the mask. -/
theorem State.mask_outstanding_status (s : State) :
    s.mask.outstanding.map (fun p => (p.entry, p.rsp.status, p.age)) =
      s.outstanding.map (fun p => (p.entry, p.rsp.status, p.age)) := by
  simp [Function.comp_def]

/-! ## The operations of an edge under the mask -/

@[simp] theorem isDue_mask (s : State) (p : Pending) : isDue s.mask p.mask = isDue s p := rfl
@[simp] theorem sampleNow_mask (s : State) : sampleNow s.mask = sampleNow s := rfl
@[simp] theorem drawStall_mask (s : State) : drawStall s.mask = drawStall s := rfl

theorem hasRoom_mask (s : State) : hasRoom s.mask = hasRoom s := by
  unfold hasRoom
  cases ho : s.outstanding <;> simp [State.mask, isDue, ho]

theorem cmdReady_mask (s : State) : cmdReady s.mask = cmdReady s := by
  rw [cmdReady, hasRoom_mask, cmdReady]
  rfl

theorem edgeKind_mask (s : State) : edgeKind s.mask = edgeKind s := by
  rw [edgeKind, cmdReady_mask, edgeKind]
  rfl

theorem nonconforming_mask (s : State) : nonconforming s.mask = nonconforming s := by
  simp [nonconforming, State.mask, Function.comp_def]

/-- The port shows a response or none, and its status, by what is outside the mask. -/
theorem shown_mask (s : State) : (shown s.mask).map Response.mask = (shown s).map Response.mask := by
  unfold shown
  cases ho : s.outstanding with
  | nil =>
    have hr := Response.mask_eq_mask.mpr (execWord_status s.alphabet s.mask.alphabet s.pins.cmd (sampleNow s))
    simp only [State.mask_outstanding, ho, List.map_nil, State.mask_pins, State.mask_params, sampleNow_mask]
    split
    next hc => simpa [hc] using hr
    next hc => simp [hc]
  | cons p rest =>
    simp only [State.mask_outstanding, ho, List.map_cons, isDue_mask]
    split
    next hd => simp [hd]
    next hd => simp [hd]

/-- Of the response on the port, only the result goes under the mask. -/
theorem outputs_mask (tick : Nat) (ready : Bool) (r : Option Response) :
    (outputs tick ready r).mask = (outputs tick ready (r.map Response.mask)).mask := by
  cases r <;> rfl

theorem takeOldest_mask (s : State) : takeOldest s.mask = (takeOldest s).mask := by
  unfold takeOldest
  cases ho : s.outstanding with
  | nil => simp [ho]
  | cons p rest =>
    simp only [State.mask_outstanding, ho, List.map_cons, isDue_mask, State.mask_pins]
    split
    next hd =>
      simp only [hd, if_true]
      simp [State.mask]
    next hd =>
      simp only [hd]
      rfl

theorem respond_mask (a : Accepted) (r : Response) (s : State) :
    (respond a r s).mask = respond a r.mask s.mask := by
  simp [respond, State.mask, Pending.mask]

theorem settle_mask (ready accepted : Bool) (s : State) :
    (settle ready accepted s.mask).mask = (settle ready accepted s).mask := by
  have hout : (outputs s.tick ready (shown s.mask)).mask = (outputs s.tick ready (shown s)).mask := by
    rw [outputs_mask, shown_mask, ← outputs_mask]
  simp only [settle, takeOldest_mask, drawStall_mask]
  generalize shown s.mask = r at hout ⊢
  simpa [State.mask, nextEdge, Function.comp_def] using hout

theorem closeEdge_mask (ready accepted : Bool) (s : State) :
    maskOutcome (closeEdge ready accepted s.mask) = maskOutcome (closeEdge ready accepted s) := by
  unfold closeEdge
  rw [nonconforming_mask]
  cases nonconforming s
  · exact congrArg Host.Outcome.next (settle_mask ready accepted s)
  · rfl

theorem powerUpEdge_mask (s : State) : maskOutcome (powerUpEdge s.mask) = maskOutcome (powerUpEdge s) := by
  unfold powerUpEdge
  cases hv : s.pins.cmdValid <;> simp [State.mask, hv, maskOutcome, nextEdge, Function.comp_def]

/-- The edge that accepts a command: its entry and its status are outside the mask. -/
theorem closeAccept_runCommand_mask (s : State) :
    maskOutcome (closeAccept (runCommand s.mask)) = maskOutcome (closeAccept (runCommand s)) := by
  have hjoined :
      (respond (acceptedOf s.pins.cmd (sampleNow s))
        (execWord s.mask.alphabet s.pins.cmd (sampleNow s)) s.mask).mask =
      (respond (acceptedOf s.pins.cmd (sampleNow s)) (execWord s.alphabet s.pins.cmd (sampleNow s)) s).mask := by
    rw [respond_mask, respond_mask, State.mask_mask, Response.mask_eq_mask.mpr (execWord_status ..)]
  rw [runCommand_eq_execWord s, runCommand_eq_execWord s.mask]
  calc maskOutcome (closeEdge true true _)
    _ = maskOutcome (closeEdge true true (State.mask _)) := (closeEdge_mask ..).symm
    _ = maskOutcome (closeEdge true true (State.mask _)) := by rw [← hjoined]; rfl
    _ = _ := closeEdge_mask ..

/-- Outside the mask a step goes as it would from the masked state. -/
theorem step_mask (s : State) : maskOutcome (step s.mask) = maskOutcome (step s) := by
  unfold step
  rw [edgeKind_mask]
  cases edgeKind s with
  | reset => rfl
  | powerUp => exact powerUpEdge_mask s
  | accept => exact closeAccept_runCommand_mask s
  | idle =>
    simp only [cmdReady_mask]
    exact closeEdge_mask ..

/-- States alike under the mask step alike under the mask. -/
theorem step_of_mask_eq {s s' t : State} (hm : s'.mask = s.mask) (h : step s = .next t) :
    ∃ t', step s' = .next t' ∧ t'.mask = t.mask := by
  have hs : maskOutcome (step s') = .next t.mask := by
    rw [← step_mask, hm, step_mask, h, maskOutcome]
  cases h' : step s' with
  | next t' => exact ⟨t', rfl, by simpa [h', maskOutcome] using hs⟩
  | fault r => simp [h', maskOutcome] at hs
  | refused r => simp [h', maskOutcome] at hs

/-! ## The alphabet is hardwired -/

/-- No step writes the ROM (10_state.md R23). -/
theorem step_alphabet {s t : State} (h : step s = .next t) : t.alphabet = s.alphabet := by
  rcases step_cases h with ⟨-, rfl⟩ | ⟨-, hv, hp⟩ | ⟨-, -, rfl⟩ | ⟨-, a, r, -, -, rfl⟩
  · simp
  · simp only [powerUpEdge, hv] at hp
    cases hp
    rfl
  · simp
  · simp

/-- Whether the port shows a response does not depend on the ROM. -/
theorem isSome_shown_of_mask_eq {s s' : State} (hm : s'.mask = s.mask) : (shown s').isSome = (shown s).isSome := by
  have h : (shown s').map Response.mask = (shown s).map Response.mask := by
    rw [← shown_mask, hm, shown_mask]
  simpa using congrArg Option.isSome h

/-- Settles O25: the ROM and the results are masked out, and no step lets them through (`step_of_mask_eq`). -/
theorem alphabetIsHardwired : Obligations.AlphabetIsHardwired := by
  refine ⟨fun s t h => step_alphabet h, fun s rom => ⟨rfl, rfl, isSome_shown_of_mask_eq rfl, fun hc => ?_⟩,
    fun s t rom h => ?_, rfl⟩
  · rw [newest_runCommand, newest_runCommand]
    exact congrArg (fun r => some (_, r)) (execWord_of_pack_or_error rom hc)
  · obtain ⟨t', h', hm⟩ := step_of_mask_eq (s := s) (s' := { s with alphabet := rom }) rfl h
    exact ⟨t', h', congrArg (·.out.cmdReady) hm, congrArg (·.out.rspValid) hm, congrArg (·.out.rspStatus) hm,
      congrArg (·.record.accepted) hm,
      by rw [← State.mask_taken_status, hm, State.mask_taken_status],
      by rw [← State.mask_outstanding_status, hm, State.mask_outstanding_status],
      congrArg (·.phase) hm, congrArg (·.stall) hm⟩

end Sys2Proof.Machine
end

section
/-! PROOFS. Responses in acceptance order (20_memory.md R49). What the host has taken and what the block still holds are
one list, `answers`. Taking a response moves it from one part of the list to the other, an accepted command brings its
own response with it, and a reset empties list and record. So the list stays `Exec` of the commands accepted. -/

namespace Sys2Proof.Machine

/-! ## The sample of a command -/

/-- Only a word that samples the clock is answered by it (30_encoding.md R69). -/
theorem execWord_of_not_samplesNow {w : Cmd} (h : samplesNow w = false) (rom : Vector Byte 64) (now now' : F64) :
    execWord rom w now = execWord rom w now' := by
  unfold execWord
  dsimp only
  split_ifs <;> simp_all [samplesNow]

/-- What the block holds of an accepted command is enough to answer it. -/
theorem answerTo_acceptedOf (rom : Vector Byte 64) (w : Cmd) (now : F64) :
    answerTo rom (acceptedOf w now) = execWord rom w now := by
  cases h : samplesNow w with
  | true => simp [answerTo, acceptedOf, h]
  | false => exact execWord_of_not_samplesNow h rom _ now

/-! ## The responses given, operation by operation -/

@[simp] theorem answers_respond (a : Accepted) (r : Response) (s : State) :
    answers (respond a r s) = answers s ++ [r] := by
  simp [answers]

@[simp] theorem answers_takeOldest (s : State) : answers (takeOldest s) = answers s := by
  rcases takeOldest_cases s with h | ⟨p, rest, ho, -, -, h⟩
  · rw [h]
  · simp [answers, h, ho]

@[simp] theorem answers_settle (ready accepted : Bool) (s : State) : answers (settle ready accepted s) = answers s := by
  rw [← answers_takeOldest s]
  simp [answers, Function.comp_def]

@[simp] theorem answers_resetEdge (s : State) : answers (resetEdge s) = [] := rfl

/-- An edge before the first reset keeps what is outstanding and the record (log entry 9). -/
theorem powerUpEdge_keeps {s t : State} (h : powerUpEdge s = .next t) :
    t.outstanding = s.outstanding ∧ t.record = s.record := by
  unfold powerUpEdge at h
  split at h
  · cases h
  · cases h
    exact ⟨rfl, rfl⟩

/-! ## One answer a command -/

/-- The responses given are `Exec` on the commands accepted, one by one and in order. -/
def AnswersMatchAccepted (s : State) : Prop :=
  answers s = s.record.accepted.map (answerTo alphabetTable)

theorem MachineInv.answersMatchAccepted {s : State} (h : MachineInv s) : AnswersMatchAccepted s := by
  obtain ⟨hheld, htaken⟩ := h.inOrder
  have hrsp : s.outstanding.map Pending.rsp = (s.outstanding.map Pending.entry).map (answerTo alphabetTable) := by
    simpa using h.faithful
  rw [AnswersMatchAccepted, answers, htaken, hrsp, ← hheld, ← List.map_append, List.take_append_drop]

/-- Settling neither gives nor takes back an answer, and accepts nothing. -/
theorem settle_keeps_answersMatchAccepted {s : State} (h : AnswersMatchAccepted s) (ready accepted : Bool) :
    AnswersMatchAccepted (settle ready accepted s) := by
  simpa [AnswersMatchAccepted] using h

/-- An accepted command brings its own answer with it. -/
theorem respond_keeps_answersMatchAccepted {s : State} (h : AnswersMatchAccepted s) (a : Accepted) :
    AnswersMatchAccepted (respond a (answerTo alphabetTable a) s) := by
  rw [AnswersMatchAccepted] at h ⊢
  simp [h]

/-- No edge breaks the order, as long as the ROM is right. -/
theorem step_keeps_answersMatchAccepted {s t : State} (hrom : RomIntact s) (h : AnswersMatchAccepted s)
    (hs : step s = .next t) : AnswersMatchAccepted t := by
  rcases step_cases hs with ⟨-, rfl⟩ | ⟨-, -, hp⟩ | ⟨-, -, rfl⟩ | ⟨-, a, r, hr, -, rfl⟩
  · simp [AnswersMatchAccepted, Record.empty]
  · obtain ⟨ho, hrec⟩ := powerUpEdge_keeps hp
    rwa [AnswersMatchAccepted, answers, ho, hrec]
  · exact settle_keeps_answersMatchAccepted h ..
  · rw [runCommand_eq_execWord, hrom, ← answerTo_acceptedOf] at hr
    rw [← Host.Outcome.next.inj hr]
    exact settle_keeps_answersMatchAccepted (respond_keeps_answersMatchAccepted h _) ..

/-- What holds at the start of a run and is kept by every step holds at its end. -/
theorem runEdges_induction {P : State → Prop} (hstep : ∀ s t, P s → step s = .next t → P t)
    {n : Nat} {s t : State} (hs : P s) (hrun : runEdges n s = .next t) : P t := by
  induction n generalizing s with
  | zero => exact runEdges_zero.mp hrun ▸ hs
  | succ n ih =>
    obtain ⟨u, hu, hrest⟩ := runEdges_succ.mp hrun
    exact ih (hstep s u hs hu) hrest

theorem runEdges_answersMatchAccepted {n : Nat} {s t : State} (hs : MachineInv s) (hrun : runEdges n s = .next t) :
    AnswersMatchAccepted t :=
  (runEdges_induction (P := fun s => RomIntact s ∧ AnswersMatchAccepted s)
    (fun _ _ ⟨hrom, h⟩ hu => ⟨(step_alphabet hu).trans hrom, step_keeps_answersMatchAccepted hrom h hu⟩)
    ⟨hs.rom, hs.answersMatchAccepted⟩ hrun).2

/-- The responses taken are the answers of the commands accepted first. -/
theorem AnswersMatchAccepted.taken_eq {s : State} (h : AnswersMatchAccepted s) :
    s.record.taken = (s.record.accepted.take s.record.taken.length).map (answerTo alphabetTable) := by
  rw [List.map_take, ← h, answers, List.take_left]

/-- Every accepted command is answered or outstanding. -/
theorem AnswersMatchAccepted.accepted_length {s : State} (h : AnswersMatchAccepted s) :
    s.record.accepted.length = s.record.taken.length + s.outstanding.length := by
  simpa [answers] using (congrArg List.length h).symm

/-- Settles O27: every edge keeps the answers given equal to `Exec` on the commands accepted
(`step_keeps_answersMatchAccepted`), and the responses taken are the first of them. -/
theorem responsesFollowAcceptanceOrder : Obligations.ResponsesFollowAcceptanceOrder := by
  intro n s t hs hrun
  have h := runEdges_answersMatchAccepted hs hrun
  exact ⟨h.taken_eq, h.accepted_length⟩

end Sys2Proof.Machine
end

section
/-! PROOFS. The byte order of the buffer (20_memory.md R41): a byte is a slice of the value, and the value is the low
end of both words that carry it. -/

namespace Sys2Proof.Machine

/-- The six slices, the first the most significant, put the value together. -/
theorem bytes_append (v : U48) :
    byteAt v 0 ++ byteAt v 1 ++ byteAt v 2 ++ byteAt v 3 ++ byteAt v 4 ++ byteAt v 5 = v := by
  simp only [byteAt, BitVec.extractLsb'_append_extractLsb'_eq_extractLsb']
  exact BitVec.extractLsb'_eq_self

/-- Bit `j` of byte `k` (20_memory.md R41, `V[47-8k:40-8k]`). -/
theorem getLsbD_byteAt (v : U48) (k : Nat) {j : Nat} (hj : j < 8) :
    (byteAt v k).getLsbD j = v.getLsbD (40 - 8 * k + j) := by
  simp [byteAt, hj]

/-- A wider word that carries the value at its low end carries byte `k` where the value does. -/
theorem extractLsb'_append_eq_byteAt {n : Nat} (x : BitVec n) (v : U48) (k : Nat) :
    (x ++ v).extractLsb' (40 - 8 * k) 8 = byteAt v k :=
  BitVec.extractLsb'_append_eq_of_add_le (by omega)

/-- Settles O45: the bytes put together are the value, and the operand of an ENCODE is the low end of its word. -/
theorem bytesAreBigEndian : Obligations.BytesAreBigEndian :=
  ⟨fun v => (bytes_append v).symm,
   fun v k _ _ hj => getLsbD_byteAt v k hj,
   fun _ _ _ => BitVec.extractLsb'_setWidth_of_le (by omega),
   fun _ _ v k _ => extractLsb'_append_eq_byteAt _ v k⟩

end Sys2Proof.Machine
end

section
/-! PROOFS. The edge that accepts a command: `Exec` on its word and its own sample (30_encoding.md R69), and the words
that have a sample: the legal GEN_NOW alone. -/

namespace Sys2Proof.Machine

/-- A word parses to a GEN_NOW by its opcode, with its own fields. -/
theorem parse_eq_genNow {w : Cmd} {len : BitVec 4} {opd : BitVec 64} :
    parse w = some (.genNow len opd) ↔ opField w = 0x4#4 ∧ lenField w = len ∧ operandField w = opd := by
  constructor
  · intro h
    rcases parse_some h with ⟨-, hi⟩ | ⟨-, hi⟩ | ⟨-, hi⟩ | ⟨ho, hi⟩ <;> cases hi
    exact ⟨ho, rfl, rfl⟩
  · rintro ⟨ho, rfl, rfl⟩
    simp [parse, ho]

/-- The words that sample the clock are those of the legal GEN_NOW. -/
theorem samplesNow_iff_decode (w : Cmd) : samplesNow w = true ↔ decode w = .instr (.genNow 0 0) := by
  have hlegal : (Instr.genNow 0 0).reservedField = none := rfl
  calc samplesNow w = true
    _ ↔ opField w = 0x4#4 ∧ lenField w = 0#4 ∧ operandField w = 0#64 := by simp [samplesNow, and_assoc]
    _ ↔ parse w = some (.genNow 0 0) := parse_eq_genNow.symm
    _ ↔ decode w = .instr (.genNow 0 0) := by rw [decode_eq_instr, and_iff_left hlegal]

/-- An accepting edge is closed with `Exec` on the word and the clock joined as its answer. -/
theorem step_of_accept {s : State} (h : edgeKind s = .accept) :
    step s = closeEdge true true
      (respond (acceptedOf s.pins.cmd (sampleNow s)) (execWord s.alphabet s.pins.cmd (sampleNow s)) s) := by
  rw [step, h]
  exact congrArg closeAccept (runCommand_eq_execWord s)

/-- Settles O19: the accepting edge joins `Exec` on its word (`step_of_accept`), which reads the clock for the words
that sample it and no other (`execWord_of_not_samplesNow`), the legal GEN_NOW (`samplesNow_iff_decode`). -/
theorem acceptedCommandIsAnsweredByExec : Obligations.AcceptedCommandIsAnsweredByExec := by
  refine ⟨fun s hrom hk => ?_, fun rom _ now now' h => execWord_of_not_samplesNow h rom now now', samplesNow_iff_decode⟩
  rw [step_of_accept hk, hrom]

end Sys2Proof.Machine
end

section
/-! PROOFS. The packer (40_pack.md R90 to R97): a finite pattern is a signed significand scaled by a power of two, and
its floor, its packed value and the answers of PACK follow from that. -/

namespace Sys2Proof.Machine

/-! ## The signed significand -/

/-- `(-1)^s * m` of 40_pack.md R92, R95: the value before it is scaled. -/
def signedSignificand (p : F64) : Int := if signBit p then -significand p else significand p

/-- The significand has at most 53 bits. -/
theorem significand_lt (p : F64) : significand p < 2 ^ 53 := by
  have hf := (fraction p).isLt
  unfold significand
  split <;> omega

/-- The value is the signed significand scaled (40_pack.md R92). -/
theorem value_eq (p : F64) : value p = signedSignificand p * 2 ^ scale p := by
  unfold value signedSignificand
  split <;> simp

theorem abs_value (p : F64) : |value p| = significand p * 2 ^ scale p := by
  have hm : 0 ≤ (significand p : ℚ) * 2 ^ scale p := by positivity
  unfold value
  split <;> simp [abs_of_nonneg hm]

/-- The magnitude of a value is less than the power of two 53 places above its scale. -/
theorem abs_value_lt (p : F64) : |value p| < 2 ^ (53 + scale p) := by
  rw [abs_value, zpow_add₀ two_ne_zero]
  have hm : (significand p : ℚ) < 2 ^ (53 : ℤ) := by exact_mod_cast significand_lt p
  exact mul_lt_mul_of_pos_right hm (zpow_pos two_pos _)

/-! ## The floor from the fields -/

/-- Scaled up, the floor is the exact integer (40_pack.md R95). -/
theorem floorInt_of_scale_nonneg {p : F64} (h : 0 ≤ scale p) :
    floorInt p = signedSignificand p * 2 ^ (scale p).toNat := by
  unfold floorInt signedSignificand
  rw [if_pos h]
  split <;> simp [Nat.shiftLeft_eq]

/-- A negative number divided by a power of two: the quotient of its magnitude, one more when bits are lost, negated. -/
theorem neg_ediv_two_pow (m n : Nat) :
    -(m : Int) / 2 ^ n = -((m >>> n + (if m % 2 ^ n ≠ 0 then 1 else 0) : Nat) : Int) := by
  have hdvd : (2 : Int) ^ n ∣ m ↔ m % 2 ^ n = 0 := by
    rw [← Nat.dvd_iff_mod_eq_zero]
    exact_mod_cast Iff.rfl
  rw [Int.neg_ediv, Int.sign_eq_one_of_pos (by positivity), Nat.shiftRight_eq_div_pow]
  by_cases h : m % 2 ^ n = 0
  · rw [if_pos (hdvd.mpr h), if_neg (not_not.mpr h)]
    simp
  · rw [if_neg (hdvd.not.mpr h), if_pos h]
    push_cast
    ring

/-- Scaled down, the floor is the signed significand divided toward minus infinity: the remainder tells whether a
negative value has a fraction (40_pack.md R95). -/
theorem floorInt_of_scale_neg {p : F64} (h : scale p < 0) :
    floorInt p = signedSignificand p / 2 ^ (-scale p).toNat := by
  unfold floorInt signedSignificand
  rw [if_neg (by omega)]
  generalize (-scale p).toNat = n
  split
  · exact (neg_ediv_two_pow _ _).symm
  · simp [Nat.shiftRight_eq_div_pow]

/-- The floor worked out from the fields is that of the exact value (40_pack.md R95). -/
theorem floorInt_eq_floor_value (p : F64) : floorInt p = ⌊value p⌋ := by
  rcases lt_or_ge (scale p) 0 with h | h
  · have hv : value p = (signedSignificand p : ℚ) / ((2 ^ (-scale p).toNat : Nat) : ℚ) := by
      rw [value_eq, div_eq_mul_inv, Nat.cast_pow, Nat.cast_ofNat, ← zpow_natCast, ← zpow_neg]
      congr 2
      omega
    rw [floorInt_of_scale_neg h, hv, Rat.floor_intCast_div_natCast]
    simp
  · have hv : value p = ((signedSignificand p * 2 ^ (scale p).toNat : Int) : ℚ) := by
      rw [value_eq]
      push_cast
      rw [← zpow_natCast, Int.toNat_of_nonneg h]
    rw [floorInt_of_scale_nonneg h, hv, Int.floor_intCast]

/-- A scale of 48 or more leaves no bit below 2^48 (40_pack.md R95). -/
theorem floorInt_emod_of_scale_ge {p : F64} (h : 48 ≤ scale p) : floorInt p % 2 ^ 48 = 0 := by
  rw [floorInt_of_scale_nonneg (by omega)]
  exact Int.emod_eq_zero_of_dvd (Dvd.dvd.mul_left (pow_dvd_pow 2 (by omega)) _)

theorem abs_value_lt_one {p : F64} (h : scale p ≤ -54) : |value p| < 1 :=
  calc |value p| < 2 ^ (53 + scale p) := abs_value_lt p
    _ ≤ 2 ^ (0 : ℤ) := zpow_le_zpow_right₀ one_le_two (by omega)
    _ = 1 := zpow_zero 2

/-- A value is negative exactly when its sign is set and it is not a zero (40_pack.md R92). -/
theorem value_neg_iff (p : F64) : value p < 0 ↔ signBit p = true ∧ significand p ≠ 0 := by
  rw [value_eq, Rat.mul_neg_iff_of_pos_right (zpow_pos two_pos _), Int.cast_lt_zero]
  unfold signedSignificand
  split <;> simp [*, Nat.pos_iff_ne_zero]

/-- The floor of a magnitude below 1 is 0, or -1 for a negative value. -/
theorem floorInt_of_abs_value_lt_one {p : F64} (h : |value p| < 1) :
    floorInt p = if signBit p = true ∧ significand p ≠ 0 then -1 else 0 := by
  obtain ⟨hlo, hhi⟩ := abs_lt.mp h
  simp only [floorInt_eq_floor_value, ← value_neg_iff]
  split
  next hn => exact Int.floor_eq_iff.mpr ⟨by simpa using hlo.le, by simpa using hn⟩
  next hn => exact Int.floor_eq_zero_iff.mpr ⟨not_lt.mp hn, hhi⟩

/-! ## The packed value -/

theorem packV_of_not_finite {p : F64} (h : isFinite p = false) : packV p = 0 := by
  simp [packV, h]

/-- The packed value of a finite pattern is its floor modulo 2^48 (40_pack.md R96). -/
theorem toNat_packV_of_finite {p : F64} (h : isFinite p = true) : ((packV p).toNat : Int) = floorInt p % 2 ^ 48 := by
  rw [packV, if_pos h, BitVec.toNat_ofInt]
  exact Int.toNat_of_nonneg (Int.emod_nonneg _ (by decide))

/-- The four steps of the normalization keep the floor modulo 2^48 (40_pack.md R94). -/
theorem normalizedValue_eq_floor_emod (x : Option ℚ) : normalizedValue x = ⌊x.getD 0⌋ % 2 ^ 48 := by
  simp only [normalizedValue]
  omega

/-- The packed value is the normalization of the number the pattern carries (40_pack.md R96). -/
theorem toNat_packV (p : F64) : ((packV p).toNat : Int) = normalizedValue (numberOf p) := by
  rw [normalizedValue_eq_floor_emod, numberOf]
  cases h : isFinite p with
  | false => simp [packV_of_not_finite h]
  | true => simp [toNat_packV_of_finite h, floorInt_eq_floor_value]

/-- Settles O38: the value is the signed significand scaled (`value_eq`), whose floor is that product for a scale of 0
or more and a division toward minus infinity below it; the shortcuts read off the product's factor 2^48 and the bound on
the magnitude. -/
theorem floorIntIsExact : Obligations.FloorIntIsExact :=
  ⟨fun p _ => floorInt_eq_floor_value p,
   fun _ h => packV_of_not_finite h,
   fun _ h => toNat_packV_of_finite h,
   fun p k _ _ hj => getLsbD_byteAt (packV p) k hj,
   toNat_packV,
   fun _ _ h => floorInt_emod_of_scale_ge h,
   fun _ _ h => ⟨abs_value_lt_one h, floorInt_of_abs_value_lt_one (abs_value_lt_one h)⟩⟩

/-! ## Values of magnitude 2^100 or more -/

/-- A magnitude of 2^100 or more has a scale of 48 or more, a significand having 53 bits (40_pack.md R99). -/
theorem scale_ge_of_abs_value_ge {p : F64} (h : 2 ^ 100 ≤ |value p|) : 48 ≤ scale p := by
  have hpow : (2 : ℚ) ^ (100 : ℤ) < 2 ^ (53 + scale p) := by exact_mod_cast h.trans_lt (abs_value_lt p)
  have := (zpow_lt_zpow_iff_right₀ one_lt_two).mp hpow
  omega

/-- A scale of 48 or more packs to 0. -/
theorem packV_of_scale_ge {p : F64} (hf : isFinite p = true) (h : 48 ≤ scale p) : packV p = 0 := by
  have h0 := toNat_packV_of_finite hf
  rw [floorInt_emod_of_scale_ge h] at h0
  exact BitVec.eq_of_toNat_eq (by simpa using h0)

/-! ## The answers of PACK -/

/-- PACK joins the outstanding set with the packed value, or with `IllegalCommand` for a reserved `LEN`
(40_pack.md R97). -/
theorem exec_pack (s : State) (len : BitVec 4) (p : F64) :
    exec (.pack len p) s =
      .next (respond { cmd := encode (.pack len p), sample := none }
        (if len = 0#4 then okResponse ((packV p).setWidth 64) else errorResponse .illegalCommand) s) := by
  simp only [exec, execPack, raise_eq_respond]
  by_cases h : len = 0#4 <;> simp [h]

/-- The word of a legal PACK (40_pack.md R97). -/
theorem encode_pack_zero (p : F64) : encode (.pack 0 p) = 0x10#8 ++ p := rfl

/-- The upper half-word of a PACK result is 0 (40_pack.md R97). -/
theorem extractLsb'_setWidth_hi (v : U48) : (v.setWidth 64 : BitVec 64).extractLsb' 48 16 = 0 := by
  have happend : v.setWidth 64 = 0#16 ++ v := BitVec.setWidth_eq_append (by decide)
  rw [happend]
  exact BitVec.extractLsb'_append_eq_left

/-- Settles O8: the two answers of `exec_pack`, a non-finite operand and a huge one packing to 0 (`packV_of_scale_ge`).
The fixed patterns of R97 are evaluated in the kernel, two of them shifting by 1074 places. -/
theorem packAnswers : Obligations.PackAnswers := by
  refine ⟨exec_pack, encode_pack_zero, fun p => extractLsb'_setWidth_hi (packV p),
    fun p h => packV_of_not_finite (by simp [isFinite, h]),
    fun p hf h => packV_of_scale_ge hf (scale_ge_of_abs_value_ge h), ?_⟩
  decide +kernel

end Sys2Proof.Machine
end

section
/-! PROOFS. The encoder (41_encode.md R120 to R125): the byte formulas are a window of six bits moved along the six
bytes, a character stands at its byte of the result, and ENCODE answers the eight characters or one of two errors. -/

namespace Sys2Proof.Machine

/-! ## The sextets of the six bytes -/

/-- A sextet that straddles two bytes, the low `k` bits of the first and the rest from the top of the second, is a
window on the two put together (41_encode.md R121, whose masks are the low `k` bits). -/
theorem straddle_eq_extractLsb' (a b : Byte) {k : Nat} (hk : k ≤ 6) :
    (((a &&& (BitVec.allOnes k).setWidth 8) <<< (6 - k)) ||| (b >>> (k + 2))).setWidth 6 =
      (a ++ b).extractLsb' (k + 2) 6 := by
  ext j hj
  simp only [BitVec.getElem_setWidth, BitVec.getLsbD_or, BitVec.getLsbD_shiftLeft, BitVec.getLsbD_and,
    BitVec.getLsbD_setWidth, BitVec.getLsbD_allOnes, BitVec.getLsbD_ushiftRight, BitVec.getElem_extractLsb',
    BitVec.getLsbD_append]
  by_cases hlow : j < 6 - k
  · simp [hlow, show k + 2 + j < 8 by omega]
  · have hb : b.getLsbD (k + 2 + j) = false := BitVec.getLsbD_of_ge b _ (by omega)
    have ha : j - (6 - k) < k ∧ j - (6 - k) < 8 ∧ j < 8 := by omega
    simp [hlow, hb, ha, show ¬ k + 2 + j < 8 by omega, show k + 2 + j - 8 = j - (6 - k) by omega]

/-- The low six bits of a byte, masked out as cwac does. -/
theorem setWidth_mask_eq_extractLsb' (c : Byte) : (c &&& 0x3F).setWidth 6 = c.extractLsb' 0 6 := by
  rw [BitVec.setWidth_and, ← BitVec.setWidth_eq_extractLsb' (by decide)]
  exact BitVec.and_allOnes

/-- A slice that starts and ends in the last two bytes is a slice of those alone. -/
theorem extractLsb'_append_last_two {n : Nat} (x : BitVec n) (a b : Byte) {start len : Nat} (h : start + len ≤ 16) :
    (x ++ a ++ b).extractLsb' start len = (a ++ b).extractLsb' start len := by
  rw [BitVec.append_assoc, BitVec.extractLsb'_cast]
  exact BitVec.extractLsb'_append_eq_of_add_le h

/-- The shifts and masks of cwac give the eight 6-bit slices of the value (41_encode.md R122). -/
theorem sextetsOfBytes_eq_map_sextetAt (b0 b1 b2 b3 b4 b5 : Byte) :
    sextetsOfBytes b0 b1 b2 b3 b4 b5 = (List.range 8).map (sextetAt (b0 ++ b1 ++ b2 ++ b3 ++ b4 ++ b5)) := by
  have hhi (a b : Byte) : (((a &&& 0x03) <<< 4) ||| (b >>> 4)).setWidth 6 = (a ++ b).extractLsb' 4 6 :=
    straddle_eq_extractLsb' a b (k := 2) (by decide)
  have hlo (a b : Byte) : (((a &&& 0x0F) <<< 2) ||| (b >>> 6)).setWidth 6 = (a ++ b).extractLsb' 6 6 :=
    straddle_eq_extractLsb' a b (k := 4) (by decide)
  -- The width as the sum of its parts, as the rules about `++` have it.
  change _ = (List.range 8).map fun i => BitVec.extractLsb' (n := 8 + 8 + 8 + 8 + 8 + 8) (42 - 6 * i) 6 _
  simp only [sextetsOfBytes, hhi, hlo, BitVec.setWidth_ushiftRight_eq_extractLsb, setWidth_mask_eq_extractLsb',
    List.range, List.range.loop, List.map]
  simp (disch := decide) only [BitVec.extractLsb'_append_eq_of_le, BitVec.extractLsb'_append_eq_of_add_le,
    extractLsb'_append_last_two, Nat.reduceMul, Nat.reduceSub]

/-! ## The characters in the result -/

/-- Character `i` stands at `RESULT[63-8i:56-8i]` (20_memory.md R42). -/
theorem resultByte_encode48 (rom : Vector Byte 64) (v : U48) {i : Nat} (hi : i < 8) :
    resultByte (encode48 rom v) i = charAt rom v i := by
  unfold resultByte encode48
  change BitVec.extractLsb' (n := 8 + 8 + 8 + 8 + 8 + 8 + 8 + 8) _ _ _ = _
  interval_cases i <;>
    simp (disch := decide) only [BitVec.extractLsb'_append_eq_of_le, BitVec.extractLsb'_append_eq_right,
      BitVec.extractLsb'_eq_self, Nat.reduceMul, Nat.reduceSub]

/-- Settles O43: character `i` stands at its byte of the result (`resultByte_encode48`), and its sextet is a slice of the
value, which the byte formulas give too (`sextetsOfBytes_eq_map_sextetAt`). -/
theorem charactersFollowTheByteFormulas : Obligations.CharactersFollowTheByteFormulas := by
  refine ⟨fun b0 b1 b2 b3 b4 b5 i h => ?_, by decide⟩
  simp only [sextetsOfBytes_eq_map_sextetAt, List.getElem_map, List.getElem_range]
  exact resultByte_encode48 _ _ h

/-! ## The answers of ENCODE -/

/-- ENCODE joins the outstanding set with the eight characters, or with the error of its first faulty field
(41_encode.md R125). -/
theorem exec_encode (s : State) (len : BitVec 4) (hi : BitVec 16) (v : U48) :
    exec (.encode len hi v) s =
      .next (respond { cmd := encode (.encode len hi v), sample := none }
        (if hi ≠ 0#16 then errorResponse .illegalCommand
         else if len ≠ 6#4 then errorResponse .invalidLength
         else okResponse (encode48 s.alphabet v)) s) := by
  simp only [exec, execEncode, raise_eq_respond]
  split_ifs <;> rfl

/-- Settles O9: the three answers of `exec_encode` under the ROM's fixed contents; the word is the concatenation of its
fields by definition. -/
theorem encodeAnswers : Obligations.EncodeAnswers := by
  refine ⟨fun s len hi v hrom => ?_, fun _ _ => rfl, by decide⟩
  rw [exec_encode, hrom]
  rfl

end Sys2Proof.Machine
end

section
/-! PROOFS. The generate family (42_generate.md R150, R151): GEN answers the characters of the packed operand and
GEN_NOW those of the packed clock sample, so their corner cases are the packer's, `A` standing for sextet 0. -/

namespace Sys2Proof.Machine

/-! ## The characters of a packed value -/

/-- The value 0 is eight times the first entry of the alphabet. -/
theorem encode48_zero : encode48 alphabetTable 0 = 0x4141414141414141 := by decide

/-- An infinity or a NaN gives the characters of 0 (42_generate.md R150). -/
theorem encode48_packV_of_not_finite {p : F64} (h : isFinite p = false) :
    encode48 alphabetTable (packV p) = 0x4141414141414141 := by
  rw [packV_of_not_finite h, encode48_zero]

/-- A negative integer packs to the multiple of 2^48 at or above its magnitude, less that magnitude
(40_pack.md R98). -/
theorem toNat_packV_of_value_neg {p : F64} {n : Nat} (hf : isFinite p = true) (hv : value p = -n) :
    (packV p).toNat = if n % 2 ^ 48 = 0 then 0 else 2 ^ 48 - n % 2 ^ 48 := by
  have hfloor : floorInt p = -n := by rw [floorInt_eq_floor_value, hv, Int.floor_neg, Int.ceil_natCast]
  have hpack := toNat_packV_of_finite hf
  rw [hfloor] at hpack
  split <;> omega

/-! ## The answers of GEN -/

/-- GEN joins the outstanding set with the characters of the packed value, or with `IllegalCommand` for a reserved `LEN`
(42_generate.md R150). -/
theorem exec_gen (s : State) (len : BitVec 4) (p : F64) :
    exec (.gen len p) s =
      .next (respond { cmd := encode (.gen len p), sample := none }
        (if len = 0#4 then okResponse (encode48 s.alphabet (packV p)) else errorResponse .illegalCommand) s) := by
  simp only [exec, execGen, raise_eq_respond]
  by_cases h : len = 0#4 <;> simp [h]

/-- The word of a legal GEN (42_generate.md R150). -/
theorem encode_gen_zero (p : F64) : encode (.gen 0 p) = 0x30#8 ++ p := rfl

/-- Settles O10: the two answers of `exec_gen` under the ROM's fixed contents, and a non-finite operand giving the
characters of 0. The fixed patterns of R150 are evaluated in the kernel. -/
theorem genAnswers : Obligations.GenAnswers := by
  refine ⟨fun s len p hrom => ?_, encode_gen_zero, fun _ => encode48_packV_of_not_finite, ?_⟩
  · rw [exec_gen, hrom]
    rfl
  · decide +kernel

/-! ## The answers of GEN_NOW -/

/-- GEN_NOW joins the outstanding set with its sample and the characters of the packed sample, or with
`IllegalCommand` and no sample when a reserved field is not 0 (42_generate.md R151). -/
theorem exec_genNow (s : State) (len : BitVec 4) (opd : BitVec 64) :
    exec (.genNow len opd) s =
      .next (if len = 0#4 ∧ opd = 0#64 then
          respond { cmd := encode (.genNow len opd), sample := some (sampleNow s) }
            (okResponse (encode48 s.alphabet (packV (sampleNow s)))) s
        else respond { cmd := encode (.genNow len opd), sample := none } (errorResponse .illegalCommand) s) := by
  simp only [exec, execGenNow, raise_eq_respond]
  by_cases hl : len = 0#4
  · by_cases ho : opd = 0#64 <;> simp [hl, ho]
  · simp [hl]

/-- A clock held across the edge is sampled as it is (42_generate.md R152). -/
theorem sampleNow_of_nowHeld {s : State} (h : s.pins.nowHeld = true) : sampleNow s = s.pins.nowMs := if_pos h

/-- Settles O11: the two answers of `exec_genNow` under the ROM's fixed contents, the sample being the held clock; a
non-finite sample gives the characters of 0, and a negative one wraps (`toNat_packV_of_value_neg`). -/
theorem genNowAnswers : Obligations.GenNowAnswers := by
  refine ⟨fun s len opd hrom => ?_, rfl, fun _ => sampleNow_of_nowHeld, fun _ => encode48_packV_of_not_finite,
    by decide, fun _ _ _ => toNat_packV_of_value_neg, by decide⟩
  rw [exec_genNow, hrom]
  rfl

end Sys2Proof.Machine
end

section
/-! PROOFS. The exceptions (60_exceptions.md R170 to R175): what raising an error leaves unchanged, the words that raise
each of the two errors, and the numbers, none of which raises one. -/

namespace Sys2Proof.Machine

/-! ## The answer of a command in two states -/

/-- The word of a command, its reserved fields included, parses to it (30_encoding.md R60 to R63). -/
theorem parse_encode (i : Instr) : parse (encode i) = some i := by
  cases i with
  | pack => exact Laws.Fields.pack ..
  | encode => exact Laws.Fields.encode ..
  | gen => exact Laws.Fields.gen ..
  | genNow => exact Laws.Fields.genNow ..

/-- The newest answer after the meaning of a command is `Exec` on its word and the clock, and reads nothing else of the
state but the ROM. -/
theorem newest_exec (i : Instr) (s : State) :
    newest (exec i s) = some (acceptedOf (encode i) (sampleNow s), execWord s.alphabet (encode i) (sampleNow s)) := by
  simp [exec_of_parse (parse_encode i), newest]

@[simp] theorem sampleNow_respond (a : Accepted) (r : Response) (s : State) : sampleNow (respond a r s) = sampleNow s :=
  rfl

/-- No error has the status of a completed command (60_exceptions.md R171). -/
theorem errorCode_ne_statusOk (e : ErrorKind) : errorCode e ≠ statusOk := by
  cases e <;> decide

/-- Settles O14: an error is a response like any other (`raise_eq_respond`), so it touches the outstanding set and the
record alone, and the next command's answer (`newest_exec`) reads neither. -/
theorem raiseIsPrecise : Obligations.RaiseIsPrecise := by
  intro e cmd s
  have hnext (i : Instr) : newest (exec i (raise e cmd s)) = newest (exec i s) := by
    simp [newest_exec, raise_eq_respond]
  exact ⟨rfl, rfl, rfl, rfl, rfl, rfl, rfl, rfl, rfl, rfl, rfl, hnext, errorCode_ne_statusOk e⟩

/-! ## The words that raise an error -/

/-- The opcode of a word is that of one of the four commands, or illegal by R65 item 1. -/
theorem opField_cases (w : Cmd) :
    opField w = 0x1#4 ∨ opField w = 0x2#4 ∨ opField w = 0x3#4 ∨ opField w = 0x4#4 ∨
      ((opField w = 0x0#4 ∨ 0x5#4 ≤ opField w) ∧
        opField w ≠ 0x1#4 ∧ opField w ≠ 0x2#4 ∧ opField w ≠ 0x3#4 ∧ opField w ≠ 0x4#4) := by
  generalize opField w = op
  revert op
  decide

/-- The illegal set in the fields of the word (30_encoding.md R65). -/
theorem illegalSet_iff {w : Cmd} :
    IllegalSet w ↔
      (opField w = 0x0#4 ∨ 0x5#4 ≤ opField w) ∨
      ((opField w = 0x1#4 ∨ opField w = 0x3#4) ∧ lenField w ≠ 0#4) ∨
      (opField w = 0x2#4 ∧ operandHiField w ≠ 0#16) ∨
      (opField w = 0x4#4 ∧ (lenField w ≠ 0#4 ∨ operandField w ≠ 0#64)) := Iff.rfl

/-- The words of an ENCODE that claims another number of bytes than 6 and is legal (60_exceptions.md R172). -/
def BadLength (w : Cmd) : Prop := opField w = 0x2#4 ∧ operandHiField w = 0#16 ∧ lenField w ≠ 6#4

/-- What `Exec` answers: `IllegalCommand` for the illegal set, `InvalidLength` for an ENCODE of a bad length, and status 0
for every other word. -/
theorem execWord_cases (rom : Vector Byte 64) (w : Cmd) (now : F64) :
    (IllegalSet w ∧ ¬ BadLength w ∧ execWord rom w now = errorResponse .illegalCommand) ∨
    (¬ IllegalSet w ∧ BadLength w ∧ execWord rom w now = errorResponse .invalidLength) ∨
    (¬ IllegalSet w ∧ ¬ BadLength w ∧ ∃ result, execWord rom w now = okResponse result) := by
  rw [illegalSet_iff, BadLength, ← operandField_extract_hi]
  unfold execWord
  dsimp only
  rcases opField_cases w with ho | ho | ho | ho | ho
  · by_cases hl : lenField w = 0#4 <;> simp [ho, hl]
  · by_cases hh : (operandField w).extractLsb' 48 16 = 0#16
    · by_cases hl : lenField w = 6#4 <;> simp [ho, hh, hl]
    · simp [ho, hh]
  · by_cases hl : lenField w = 0#4 <;> simp [ho, hl]
  · by_cases hl : lenField w = 0#4 ∧ operandField w = 0#64
    · simp [ho, hl]
    · simp [ho, not_and_or.mp hl]
  · obtain ⟨hop, h1, h2, h3, h4⟩ := ho
    simp [hop, h1, h2, h3, h4]

/-- `Exec` has the status of `IllegalCommand` for the illegal set and no other word. -/
theorem execWord_status_eq_illegalCommand {rom : Vector Byte 64} {w : Cmd} {now : F64} :
    (execWord rom w now).status = 2#2 ↔ IllegalSet w := by
  rcases execWord_cases rom w now with ⟨hi, -, h⟩ | ⟨hi, -, h⟩ | ⟨hi, -, r, h⟩ <;>
    simp [h, hi, errorResponse, okResponse, errorCode, statusOk]

/-- `Exec` has the status of `InvalidLength` for an ENCODE of a bad length and no other word. -/
theorem execWord_status_eq_invalidLength {rom : Vector Byte 64} {w : Cmd} {now : F64} :
    (execWord rom w now).status = 1#2 ↔ BadLength w := by
  rcases execWord_cases rom w now with ⟨-, hb, h⟩ | ⟨-, hb, h⟩ | ⟨-, hb, r, h⟩ <;>
    simp [h, hb, errorResponse, okResponse, errorCode, statusOk]

/-- Every answer but that of a completed command has the result 0 (60_exceptions.md R170). -/
theorem execWord_result_of_status_ne_statusOk {rom : Vector Byte 64} {w : Cmd} {now : F64}
    (h : (execWord rom w now).status ≠ statusOk) : (execWord rom w now).result = 0#64 := by
  rcases execWord_cases rom w now with ⟨-, -, he⟩ | ⟨-, -, he⟩ | ⟨-, -, r, he⟩
  · rw [he, errorResponse]
  · rw [he, errorResponse]
  · exact absurd (by rw [he, okResponse]) h

/-- The lengths R172 lists are those other than 6. -/
theorem toNat_mem_badLengths_iff (len : BitVec 4) :
    len.toNat ∈ [0, 1, 2, 3, 4, 5, 7, 8, 9, 10, 11, 12, 13, 14, 15] ↔ len ≠ 6#4 := by
  revert len
  decide

/-- Settles O15: the status of `Exec` is 1 for a bad length alone (`execWord_status_eq_invalidLength`), and R172 lists the
bad lengths. -/
theorem invalidLengthExactly : Obligations.InvalidLengthExactly := by
  intro s
  refine ⟨_, _, runCommand_eq_execWord s, ?_, fun h => execWord_result_of_status_ne_statusOk (by simp [h, statusOk])⟩
  rw [execWord_status_eq_invalidLength, toNat_mem_badLengths_iff]
  rfl

/-- A word of the illegal set samples nothing (60_exceptions.md R173, 42_generate.md R151). -/
theorem samplesNow_of_illegalSet {w : Cmd} (h : IllegalSet w) : samplesNow w = false := by
  rw [Bool.eq_false_iff]
  intro hs
  obtain ⟨ho, hl, hopd⟩ : opField w = 0x4#4 ∧ lenField w = 0#4 ∧ operandField w = 0#64 := by
    simpa [samplesNow, and_assoc] using hs
  simp [illegalSet_iff, ho, hl, hopd] at h

/-- Settles O16: the status of `Exec` is 2 for the illegal set alone (`execWord_status_eq_illegalCommand`), whose words
sample nothing. -/
theorem illegalCommandExactly : Obligations.IllegalCommandExactly := by
  intro s
  refine ⟨_, _, runCommand_eq_execWord s, execWord_status_eq_illegalCommand, fun h => ⟨?_, ?_⟩⟩
  · exact execWord_result_of_status_ne_statusOk (by simp [h, statusOk])
  · simp [acceptedOf, samplesNow_of_illegalSet (execWord_status_eq_illegalCommand.mp h)]

/-- A word of the illegal set raises `IllegalCommand` (60_exceptions.md R173). -/
theorem runCommand_of_illegalSet {s : State} (h : IllegalSet s.pins.cmd) :
    runCommand s = .next (raise .illegalCommand s.pins.cmd s) := by
  rcases execWord_cases s.alphabet s.pins.cmd (sampleNow s) with ⟨-, -, he⟩ | ⟨hi, -⟩ | ⟨hi, -⟩
  · rw [runCommand_eq_execWord, he, acceptedOf, samplesNow_of_illegalSet h]
    rfl
  · exact absurd h hi
  · exact absurd h hi

/-- Settles O17: an ENCODE with a reserved half-word that is not 0 is in the illegal set whatever its `LEN` is, so it
raises `IllegalCommand` (`runCommand_of_illegalSet`). -/
theorem illegalCommandWins : Obligations.IllegalCommandWins :=
  fun _ hop hhi _ => runCommand_of_illegalSet (.inr (.inr (.inl ⟨hop, hhi⟩)))

/-! ## The inputs that are normalized -/

/-- The normalization of the number a pattern carries, in a word of any width, is the packed value at its low end. -/
theorem ofInt_normalizedValue (n : Nat) (p : F64) :
    BitVec.ofInt n (normalizedValue (numberOf p)) = (packV p).setWidth n := by
  rw [← toNat_packV, BitVec.ofInt_natCast, BitVec.ofNat_toNat]

/-- Settles O12: the legal forms answer status 0 with the packed value (`exec_pack`, `exec_gen`, `exec_genNow`,
`exec_encode`), which is the normalization (`ofInt_normalizedValue`), the floor modulo 2^48 of a finite number and 0 of
any other (`normalizedValue_eq_floor_emod`). -/
theorem numericInputsAreNormalizedNotRejected : Obligations.NumericInputsAreNormalizedNotRejected := by
  simp only [Obligations.NumericInputsAreNormalizedNotRejected, ofInt_normalizedValue, BitVec.setWidth_eq]
  refine ⟨fun s p hrom => ⟨exec_pack s 0 p, ?_⟩, fun s hrom => ?_, fun s v hrom => ?_, fun p hf => ?_, fun p hf => ?_⟩
  · rw [exec_gen, hrom]
    rfl
  · rw [exec_genNow, hrom]
    rfl
  · rw [exec_encode, hrom]
    rfl
  · simp [normalizedValue_eq_floor_emod, numberOf, hf]
  · simp [normalizedValue_eq_floor_emod, numberOf, hf]

end Sys2Proof.Machine
end

section
/-! PROOFS. The decoder and the encoder are inverse on the legal commands (30_encoding.md R60 to R65), and the decoder
keeps to the rows of the opcode table (R74). -/

namespace Sys2Proof

/-- Settles O1: the word of a command parses to it (`parse_encode`), and well-formed means that no reserved field is
set. -/
theorem decodeOfEncodeIsTheCommand : Obligations.DecodeOfEncodeIsTheCommand := fun i h =>
  decode_eq_instr.mpr ⟨Machine.parse_encode i, beq_iff_eq.mp h⟩

/-- Settles O2: an accepted word parses to its command, whose word it then is (`encode_of_parse`). -/
theorem encodeOfDecodeIsTheWord : Obligations.EncodeOfDecodeIsTheWord := fun _ _ h =>
  have ⟨hp, hr⟩ := decode_eq_instr.mp h
  ⟨encode_of_parse hp, beq_iff_eq.mpr hr⟩

/-! ## The legal words, in their fields -/

/-- A decoded command has the opcode and the fields of its word, and 0 in the reserved ones (30_encoding.md R64). -/
theorem decode_instr_cases {w : Cmd} {i : Instr} (h : decode w = .instr i) :
    (opField w = 0x1#4 ∧ lenField w = 0#4 ∧ i = .pack 0 (operandField w)) ∨
    (opField w = 0x2#4 ∧ operandHiField w = 0#16 ∧ i = .encode (lenField w) 0 (bytesField w)) ∨
    (opField w = 0x3#4 ∧ lenField w = 0#4 ∧ i = .gen 0 (operandField w)) ∨
    (opField w = 0x4#4 ∧ lenField w = 0#4 ∧ operandField w = 0#64 ∧ i = .genNow 0 0) := by
  obtain ⟨hp, hr⟩ := decode_eq_instr.mp h
  rcases parse_some hp with ⟨ho, rfl⟩ | ⟨ho, rfl⟩ | ⟨ho, rfl⟩ | ⟨ho, rfl⟩ <;>
    simp only [Instr.reservedField] at hr <;> split_ifs at hr <;> simp_all

/-- A word whose reserved fields are 0 decodes to the command it parses to. -/
theorem decode_of_fields {w : Cmd} :
    (opField w = 0x1#4 ∧ lenField w = 0#4 → decode w = .instr (.pack 0 (operandField w))) ∧
    (opField w = 0x2#4 ∧ operandHiField w = 0#16 → decode w = .instr (.encode (lenField w) 0 (bytesField w))) ∧
    (opField w = 0x3#4 ∧ lenField w = 0#4 → decode w = .instr (.gen 0 (operandField w))) ∧
    (opField w = 0x4#4 ∧ lenField w = 0#4 ∧ operandField w = 0#64 → decode w = .instr (.genNow 0 0)) := by
  refine ⟨?_, ?_, ?_, ?_⟩ <;> intro h <;> simp [decode_eq_instr, parse, Instr.reservedField, h]

/-! ## The illegal set -/

/-- A word is refused exactly when it is in the illegal set (30_encoding.md R65): refused words are answered by
`IllegalCommand`, and the others have every reserved field 0. -/
theorem decode_illegal_iff {w : Cmd} : (∃ why, decode w = .illegal why) ↔ Machine.IllegalSet w := by
  constructor
  · rintro ⟨why, h⟩
    have hanswer := (Machine.execWord_of_illegal h Machine.alphabetTable 0).1
    exact Machine.execWord_status_eq_illegalCommand.mp (congrArg Machine.Response.status hanswer)
  · intro hill
    cases h : decode w with
    | illegal why => exact ⟨why, rfl⟩
    | instr i =>
      rw [Machine.illegalSet_iff] at hill
      rcases decode_instr_cases h with ⟨ho, hl, -⟩ | ⟨ho, hl, -⟩ | ⟨ho, hl, -⟩ | ⟨ho, hl, hx, -⟩ <;> simp_all

/-- Settles O3: by the answer of a refused word one way, by the fields of a decoded one the other
(`decode_illegal_iff`). -/
theorem decoderRefusesTheIllegalSet : Obligations.DecoderRefusesTheIllegalSet := fun _ => decode_illegal_iff

/-! ## The rows of the opcode table -/

/-- Two concatenations are equal exactly when both parts are. -/
theorem append_eq_append_iff {m n : Nat} {a c : BitVec m} {b d : BitVec n} : a ++ b = c ++ d ↔ a = c ∧ b = d := by
  refine ⟨fun h => ⟨?_, ?_⟩, fun ⟨ha, hb⟩ => ha ▸ hb ▸ rfl⟩
  · simpa only [BitVec.extractLsb'_append_eq_left] using congrArg (BitVec.extractLsb' n m) h
  · simpa only [BitVec.extractLsb'_append_eq_right] using congrArg (BitVec.extractLsb' 0 n) h

/-- A mask on a word is a mask on each of its fields. -/
theorem and_eq_iff_fields {w : Cmd} {mo ml bo bl : BitVec 4} {mx bx : BitVec 64} :
    w &&& (mo ++ ml ++ mx) = bo ++ bl ++ bx ↔
      opField w &&& mo = bo ∧ lenField w &&& ml = bl ∧ operandField w &&& mx = bx := by
  conv_lhs => rw [← word_eq_fields w]
  rw [BitVec.and_append, BitVec.and_append, append_eq_append_iff, append_eq_append_iff, and_assoc]

/-- The row of a command. -/
def rowOf : Instr → TableRow
  | .pack _ _ => { mnemonic := "PACK", bits := 0x100000000000000000, mask := 0xFF0000000000000000 }
  | .encode _ _ _ => { mnemonic := "ENCODE", bits := 0x200000000000000000, mask := 0xF0FFFF000000000000 }
  | .gen _ _ => { mnemonic := "GEN", bits := 0x300000000000000000, mask := 0xFF0000000000000000 }
  | .genNow _ _ => { mnemonic := "GEN_NOW", bits := 0x400000000000000000, mask := 0xFFFFFFFFFFFFFFFFFF }

theorem rowOf_mem (i : Instr) : rowOf i ∈ tableRows := by
  cases i <;> simp [rowOf, tableRows]

theorem rowOf_mnemonic (i : Instr) : (rowOf i).mnemonic = mnemonicOf i := by
  cases i <;> rfl

/-- A mnemonic names one row. -/
theorem eq_of_mnemonic_eq : ∀ r₁ ∈ tableRows, ∀ r₂ ∈ tableRows, r₁.mnemonic = r₂.mnemonic → r₁ = r₂ := by
  decide

/-- A word is covered by a row exactly when the fields its mask keeps are the row's (30_encoding.md R74). -/
theorem covers_rowOf_iff {w : Cmd} (len : BitVec 4) (hi : BitVec 16) (bytes : U48) (x : BitVec 64) :
    ((rowOf (.pack len x)).covers w = true ↔ opField w = 0x1#4 ∧ lenField w = 0#4) ∧
    ((rowOf (.encode len hi bytes)).covers w = true ↔ opField w = 0x2#4 ∧ operandHiField w = 0#16) ∧
    ((rowOf (.gen len x)).covers w = true ↔ opField w = 0x3#4 ∧ lenField w = 0#4) ∧
    ((rowOf (.genNow len x)).covers w = true ↔ opField w = 0x4#4 ∧ lenField w = 0#4 ∧ operandField w = 0#64) := by
  have h4 (x : BitVec 4) : x &&& 0xF#4 = x := BitVec.and_allOnes
  have h16 (x : BitVec 16) : x &&& 0xFFFF#16 = x := BitVec.and_allOnes
  have h64 (x : BitVec 64) : x &&& 0xFFFFFFFFFFFFFFFF#64 = x := BitVec.and_allOnes
  have hhi : operandField w &&& 0xFFFF000000000000#64 = 0#64 ↔ operandHiField w = 0#16 := by
    change operandField w &&& (0xFFFF#16 ++ 0#48) = 0#16 ++ 0#48 ↔ _
    rw [operandField_eq, BitVec.and_append, h16, append_eq_append_iff, BitVec.and_zero, eq_self, and_true]
  have hshort (op : BitVec 4) :
      w &&& 0xFF0000000000000000 = op ++ 0#4 ++ 0#64 ↔ opField w = op ∧ lenField w = 0#4 := by
    simpa [h4] using and_eq_iff_fields (w := w) (mo := 0xF) (ml := 0xF) (mx := 0) (bo := op) (bl := 0) (bx := 0)
  have hencode := and_eq_iff_fields (w := w) (mo := 0xF) (ml := 0) (mx := 0xFFFF000000000000) (bo := 2) (bl := 0) (bx := 0)
  have hgenNow :=
    and_eq_iff_fields (w := w) (mo := 0xF) (ml := 0xF) (mx := 0xFFFFFFFFFFFFFFFF) (bo := 4) (bl := 0) (bx := 0)
  refine ⟨?_, ?_, ?_, ?_⟩ <;> simp only [TableRow.covers, rowOf, beq_iff_eq]
  · exact hshort 0x1
  · simpa [h4, hhi] using hencode
  · exact hshort 0x3
  · simpa [h4, h64] using hgenNow

/-- A decoded word is covered by the row of its command. -/
theorem covers_of_decode {w : Cmd} {i : Instr} (h : decode w = .instr i) : (rowOf i).covers w = true := by
  obtain ⟨hpack, hencode, hgen, hgenNow⟩ := covers_rowOf_iff (w := w) 0 0 (bytesField w) (operandField w)
  rcases decode_instr_cases h with ⟨ho, hl, rfl⟩ | ⟨ho, hh, rfl⟩ | ⟨ho, hl, rfl⟩ | ⟨ho, hl, hx, rfl⟩
  · exact hpack.mpr ⟨ho, hl⟩
  · exact hencode.mpr ⟨ho, hh⟩
  · exact hgen.mpr ⟨ho, hl⟩
  · exact hgenNow.mpr ⟨ho, hl, hx⟩

/-- A word a row covers decodes to a command of that row. -/
theorem exists_decode_of_covers {w : Cmd} {r : TableRow} (hr : r ∈ tableRows) (h : r.covers w = true) :
    ∃ i, decode w = .instr i ∧ mnemonicOf i = r.mnemonic := by
  obtain ⟨hpack, hencode, hgen, hgenNow⟩ := covers_rowOf_iff (w := w) 0 0 0 0
  obtain ⟨dpack, dencode, dgen, dgenNow⟩ := decode_of_fields (w := w)
  simp only [tableRows, List.mem_cons, List.not_mem_nil, or_false] at hr
  rcases hr with rfl | rfl | rfl | rfl
  · exact ⟨_, dpack (hpack.mp h), rfl⟩
  · exact ⟨_, dencode (hencode.mp h), rfl⟩
  · exact ⟨_, dgen (hgen.mp h), rfl⟩
  · exact ⟨_, dgenNow (hgenNow.mp h), rfl⟩

/-- Settles O4: a row covers a word by the fields that the decoder reads (`covers_of_decode`,
`exists_decode_of_covers`), and no two rows have one mnemonic. -/
theorem decoderAgreesWithOpcodeTable : Obligations.DecoderAgreesWithOpcodeTable := by
  refine fun w => ⟨fun r hr => ⟨exists_decode_of_covers hr, ?_⟩, fun r₁ h₁ r₂ h₂ hc₁ hc₂ => ?_, fun hnone => ?_⟩
  · rintro ⟨i, hi, hm⟩
    rw [eq_of_mnemonic_eq r hr _ (rowOf_mem i) (hm.symm.trans (rowOf_mnemonic i).symm)]
    exact covers_of_decode hi
  · obtain ⟨i, hi, hm⟩ := exists_decode_of_covers h₁ hc₁
    obtain ⟨j, hj, hn⟩ := exists_decode_of_covers h₂ hc₂
    obtain rfl : i = j := Decoded.instr.inj (hi.symm.trans hj)
    exact eq_of_mnemonic_eq r₁ h₁ r₂ h₂ (hm.symm.trans hn)
  · cases hd : decode w with
    | illegal why => exact ⟨why, rfl⟩
    | instr i => exact absurd (covers_of_decode hd) (Bool.eq_false_iff.mp (hnone _ (rowOf_mem i)))

/-- Settles O5: by evaluation. -/
theorem exampleWordsDecode : Obligations.ExampleWordsDecode := by
  unfold Obligations.ExampleWordsDecode
  decide

end Sys2Proof
end

section
/-! PROOFS. The meaning of a command: what it leaves unchanged, what its answer depends on, and the edge that runs it
(10_state.md section 4, 30_encoding.md R69). -/

namespace Sys2Proof.Machine

/-- Settles O13: whatever the command, it joins the outstanding set and the record with its answer (`exec_of_parse`), and
that touches no other field. -/
theorem execFrame : Obligations.ExecFrame := fun i _ =>
  ⟨_, _, exec_of_parse (parse_encode i), rfl, rfl, rfl, rfl, rfl, rfl, rfl, rfl, rfl, rfl, rfl, rfl, rfl⟩

/-- Only a GEN_NOW samples the clock (42_generate.md R152). -/
theorem eq_genNow_of_samplesNow {i : Instr} (h : samplesNow (encode i) = true) : i = .genNow 0 0 := by
  obtain ⟨hp, -⟩ := decode_eq_instr.mp ((samplesNow_iff_decode _).mp h)
  exact Option.some.inj ((parse_encode i).symm.trans hp)

/-- Settles O18: the newest answer is `Exec` on the word, the ROM and the clock (`newest_exec`), and a word that samples
the clock is that of a GEN_NOW. -/
theorem responseDependsOnCommandAndSampleOnly : Obligations.ResponseDependsOnCommandAndSampleOnly := by
  intro i s s' hrom hclock
  rw [newest_exec, newest_exec, hrom]
  cases hs : samplesNow (encode i) with
  | true => rw [hclock ⟨0, 0, eq_genNow_of_samplesNow hs⟩]
  | false => rw [execWord_of_not_samplesNow hs _ (sampleNow s) (sampleNow s'), acceptedOf, acceptedOf, hs]; rfl

/-! ## The edge that runs a command -/

/-- A command is accepted with a reset behind the block, none now, and both handshake levels 1 (10_state.md R27). -/
theorem edgeKind_eq_accept {s : State} :
    edgeKind s = .accept ↔
      s.pins.rst = false ∧ s.phase = .operating ∧ s.pins.cmdValid = true ∧ cmdReady s = true := by
  unfold edgeKind
  cases s.pins.rst <;> cases s.phase <;> simp

/-- An accepting edge runs the command its word decodes to. -/
theorem step_of_accept_decode {s : State} {i : Instr} (hk : edgeKind s = .accept) (hd : decode s.pins.cmd = .instr i) :
    step s = closeAccept (exec i s) := by
  simp [step, hk, runCommand, hd]

/-- Settles O6: the handshake levels make the edge an accepting one, and closing an edge faults on a held status 3 or
settles it. -/
theorem stepRunsTheDecodedCommand : Obligations.StepRunsTheDecodedCommand := by
  intro s i hrst hop hvalid hready hd
  have hstep := step_of_accept_decode (edgeKind_eq_accept.mpr ⟨hrst, hop, hvalid, hready⟩) hd
  exact ⟨hstep, fun t ht => by rw [hstep, ht]; rfl⟩

/-! ## A word presented from outside -/

/-- No answer has the reserved status 3 (60_exceptions.md R171). -/
theorem execWord_status_ne_three (rom : Vector Byte 64) (w : Cmd) (now : F64) : (execWord rom w now).status ≠ 3#2 := by
  rcases execWord_cases rom w now with ⟨-, -, h⟩ | ⟨-, -, h⟩ | ⟨-, -, r, h⟩ <;>
    simp [h, errorResponse, okResponse, errorCode, statusOk]

/-- A command that joins with a response of another status than 3 leaves the block as conforming as it was. -/
theorem nonconforming_respond {a : Accepted} {r : Response} (s : State) (h : r.status ≠ 3#2) :
    nonconforming (respond a r s) = nonconforming s := by
  simp [nonconforming, h]

/-- A conforming block closes every accepting edge. -/
theorem step_answers_of_accept {s : State} (hk : edgeKind s = .accept) (hc : nonconforming s = false) :
    ∃ t, step s = .next t := by
  rw [step_of_accept hk]
  exact ⟨_, closeEdge_next.mpr ⟨(nonconforming_respond s (execWord_status_ne_three _ _ _)).trans hc, rfl⟩⟩

/-- A presented word stands on its port, and the block is able to take it (log entry 14). -/
theorem presentWord_ready (w : Cmd) (s : State) :
    edgeKind (presentWord w s) = .accept ∧ nonconforming (presentWord w s) = false ∧
    (presentWord w s).pins = { s.pins with rst := false, cmdValid := true, cmd := w, rspReady := true } ∧
    (presentWord w s).alphabet = s.alphabet := by
  unfold presentWord
  dsimp only
  split
  next h =>
    simp only [Bool.and_eq_true, beq_iff_eq, Bool.not_eq_true'] at h
    obtain ⟨⟨hop, hroom⟩, hc⟩ := h
    exact ⟨edgeKind_eq_accept.mpr ⟨rfl, hop, rfl, by simp [cmdReady, hroom]⟩, hc, rfl, rfl⟩
  next => exact ⟨edgeKind_eq_accept.mpr ⟨rfl, rfl, rfl, rfl⟩, rfl, rfl, rfl⟩

/-- A numbered word of the opcode table that is a command decodes to it (log entry 15). -/
theorem decode_of_decodeTableWord {nbits w : Nat} {i : Instr} (h : decodeTableWord nbits w = some i) :
    decode (BitVec.ofNat 72 (w % 2 ^ nbits)) = .instr i := by
  unfold decodeTableWord at h
  cases hd : decode (BitVec.ofNat 72 (w % 2 ^ nbits)) <;> simp_all [Decoded.toInstr]

/-- Settles O7: the presented word is accepted at the next edge (`presentWord_ready`), which runs it and closes. -/
theorem fetchedWordIsRunNext : Obligations.FetchedWordIsRunNext := by
  intro s nbits w i h
  obtain ⟨hk, hc, hpins, hrom⟩ := presentWord_ready (BitVec.ofNat 72 (w % 2 ^ nbits)) s
  have hd : decode (s.withFetchWord nbits w).pins.cmd = .instr i := by
    rw [State.withFetchWord, hpins]
    exact decode_of_decodeTableWord h
  exact ⟨hk, step_of_accept_decode hk hd, step_answers_of_accept hk hc, hrom, congrArg (·.nowMs) hpins,
    congrArg (·.nowHeld) hpins⟩

end Sys2Proof.Machine
end

section
/-! PROOFS. One edge of a block that has been reset (10_state.md R27): a command accepted at it joins the others, and
whether one does or not, the edge is settled in one way. What an edge does to each field is said here once. -/

namespace Sys2Proof.Machine

/-! ## The command that joins -/

/-- The command accepted at the coming edge, if one is, as it joins the outstanding set (10_state.md R30). -/
def joining (s : State) : List Pending :=
  if edgeKind s = .accept then
    [{ entry := acceptedOf s.pins.cmd (sampleNow s), rsp := execWord s.alphabet s.pins.cmd (sampleNow s), age := 0 }]
  else []

/-- The block within the coming edge, once the accepted command has joined. -/
def joined (s : State) : State :=
  { s with
    outstanding := s.outstanding ++ joining s
    record := { s.record with accepted := s.record.accepted ++ (joining s).map Pending.entry } }

theorem joining_of_accept {s : State} (h : edgeKind s = .accept) :
    joining s =
      [{ entry := acceptedOf s.pins.cmd (sampleNow s), rsp := execWord s.alphabet s.pins.cmd (sampleNow s), age := 0 }] :=
  if_pos h

theorem joining_of_not_accept {s : State} (h : edgeKind s ≠ .accept) : joining s = [] := if_neg h

@[simp] theorem joined_outstanding (s : State) : (joined s).outstanding = s.outstanding ++ joining s := rfl
@[simp] theorem joined_accepted (s : State) :
    (joined s).record.accepted = s.record.accepted ++ (joining s).map Pending.entry := rfl
@[simp] theorem joined_taken (s : State) : (joined s).record.taken = s.record.taken := rfl
@[simp] theorem joined_alphabet (s : State) : (joined s).alphabet = s.alphabet := rfl
@[simp] theorem joined_pins (s : State) : (joined s).pins = s.pins := rfl
@[simp] theorem joined_script (s : State) : (joined s).script = s.script := rfl
@[simp] theorem joined_params (s : State) : (joined s).params = s.params := rfl
@[simp] theorem joined_phase (s : State) : (joined s).phase = s.phase := rfl
@[simp] theorem joined_stall (s : State) : (joined s).stall = s.stall := rfl
@[simp] theorem joined_tick (s : State) : (joined s).tick = s.tick := rfl

@[simp] theorem drawStall_joined (s : State) : drawStall (joined s) = drawStall s := rfl

theorem joined_of_not_accept {s : State} (h : edgeKind s ≠ .accept) : joined s = s := by
  simp [joined, joining_of_not_accept h]

theorem joined_of_accept {s : State} (h : edgeKind s = .accept) :
    joined s = respond (acceptedOf s.pins.cmd (sampleNow s)) (execWord s.alphabet s.pins.cmd (sampleNow s)) s := by
  simp [joined, joining_of_accept h, respond]

/-! ## The command whose response is taken -/

/-- The outstanding command whose response the host takes at an edge, if it takes one (10_state.md R27). -/
def delivered (s : State) : List Pending := (s.outstanding.take 1).filter fun p => isDue s p && s.pins.rspReady

/-- Taking the oldest response moves the delivered command out of the outstanding set, and its response behind those taken
before. -/
theorem takeOldest_delivered (s : State) :
    s.outstanding = delivered s ++ (takeOldest s).outstanding ∧
    (takeOldest s).record.taken = s.record.taken ++ (delivered s).map Pending.rsp := by
  unfold delivered takeOldest
  split
  next p rest ho => split <;> simp [*]
  next ho => simp [ho]

/-! ## The step -/

/-- With a reset behind it and none now, an edge closes with the accepted command joined, if there is one. -/
theorem step_operating {s : State} (hop : s.phase = .operating) (hrst : s.pins.rst = false) :
    step s = closeEdge (cmdReady s) (decide (edgeKind s = .accept)) (joined s) := by
  by_cases hk : edgeKind s = .accept
  · obtain ⟨-, -, -, hready⟩ := edgeKind_eq_accept.mp hk
    simp [step_of_accept hk, joined_of_accept hk, hk, hready]
  · have hidle : edgeKind s = .idle := by simpa [edgeKind_operating hop hrst] using hk
    simp [step, hidle, joined_of_not_accept hk]

/-- An edge of a block that has been reset settles the accepted command, if there is one, with the others. -/
theorem step_next_operating {s t : State} (hop : s.phase = .operating) (hrst : s.pins.rst = false)
    (h : step s = .next t) : t = settle (cmdReady s) (decide (edgeKind s = .accept)) (joined s) := by
  rw [step_operating hop hrst] at h
  exact (closeEdge_next.mp h).2

/-- What a step that answers a next state can do: a reset edge, an edge before the first reset, or an edge that is
settled. -/
theorem step_next_cases {s t : State} (h : step s = .next t) :
    (s.pins.rst = true ∧ t = resetEdge s) ∨
    (s.pins.rst = false ∧ s.phase = .beforeReset ∧ powerUpEdge s = .next t) ∨
    (s.pins.rst = false ∧ s.phase = .operating ∧
      t = settle (cmdReady s) (decide (edgeKind s = .accept)) (joined s)) := by
  cases hrst : s.pins.rst with
  | true => exact .inl ⟨rfl, by simpa [step, edgeKind, hrst, eq_comm] using h⟩
  | false =>
    cases hp : s.phase with
    | beforeReset => exact .inr (.inl ⟨rfl, rfl, by simpa [step, edgeKind, hrst, hp] using h⟩)
    | operating => exact .inr (.inr ⟨rfl, rfl, step_next_operating hp hrst h⟩)

/-- An edge before the first reset goes on, with nothing presented, to the same block at its next edge (log entry 9). -/
theorem powerUpEdge_next {s t : State} (h : powerUpEdge s = .next t) :
    s.pins.cmdValid = false ∧ ∃ out, t = nextEdge { s with out := out } := by
  unfold powerUpEdge at h
  split at h
  · cases h
  next hv => exact ⟨Bool.eq_false_iff.mpr hv, _, (Host.Outcome.next.inj h).symm⟩

/-! ## What an edge does to each field -/

/-- No step changes the parameters. -/
theorem step_params {s t : State} (h : step s = .next t) : t.params = s.params := by
  rcases step_next_cases h with ⟨-, rfl⟩ | ⟨-, -, hp⟩ | ⟨-, -, rfl⟩
  · rfl
  · obtain ⟨-, out, rfl⟩ := powerUpEdge_next hp
    rfl
  · simp

/-- The host's levels move on by one edge. -/
theorem step_pins {s t : State} (h : step s = .next t) : t.pins = s.script.headD .idle ∧ t.script = s.script.tail := by
  rcases step_next_cases h with ⟨-, rfl⟩ | ⟨-, -, hp⟩ | ⟨-, -, rfl⟩
  · exact ⟨rfl, rfl⟩
  · obtain ⟨-, out, rfl⟩ := powerUpEdge_next hp
    exact ⟨rfl, rfl⟩
  · simp

/-- A block that has been reset stays so. -/
theorem step_phase {s t : State} (hop : s.phase = .operating) (h : step s = .next t) : t.phase = .operating := by
  rcases step_next_cases h with ⟨-, rfl⟩ | ⟨-, hb, -⟩ | ⟨-, -, rfl⟩
  · rfl
  · simp [hop] at hb
  · simpa using hop

section
variable {s t : State} (hop : s.phase = .operating) (hrst : s.pins.rst = false) (h : step s = .next t)
include hop hrst h

/-- The commands accepted since the last reset: those before, and the one that joins. -/
theorem step_accepted : t.record.accepted = s.record.accepted ++ (joining s).map Pending.entry := by
  simp [step_next_operating hop hrst h]

/-- What is outstanding is taken from, and one edge older. -/
theorem step_outstanding : t.outstanding = (takeOldest (joined s)).outstanding.map Pending.older := by
  simp [step_next_operating hop hrst h]

/-- The responses taken since the last reset: those before, and the one delivered. -/
theorem step_taken : t.record.taken = s.record.taken ++ (delivered (joined s)).map Pending.rsp := by
  simp [step_next_operating hop hrst h, (takeOldest_delivered (joined s)).2]

/-- Every outstanding command, the joining one behind the others, is delivered or stays. -/
theorem step_outstanding_split :
    (s.outstanding ++ joining s).map Pending.older = (delivered (joined s)).map Pending.older ++ t.outstanding := by
  rw [step_outstanding hop hrst h, ← List.map_append, ← (takeOldest_delivered (joined s)).1, joined_outstanding]

theorem step_stall : t.stall = if edgeKind s = .accept then drawStall s else s.stall - 1 := by
  simp [step_next_operating hop hrst h]

end

/-! ## The output ports -/

/-- The oldest outstanding command's response is shown when it is due. -/
theorem shown_of_cons {s : State} {p : Pending} {rest : List Pending} (ho : s.outstanding = p :: rest) :
    shown s = if s.params.latency ≤ p.age then some p.rsp else none := by
  simp [shown, ho, isDue]

/-- With nothing outstanding the port shows a response at latency 0 alone, that of the word presented. -/
theorem shown_of_nil {s : State} (ho : s.outstanding = []) :
    shown s =
      if s.params.latency = 0 ∧ s.pins.cmdValid then some (execWord s.alphabet s.pins.cmd (sampleNow s)) else none := by
  simp [shown, ho]

/-- A command that joins does not change what the port shows: behind others it is not the oldest, alone it is not due, but
for latency 0, where the port already showed its response. -/
theorem shown_joined (s : State) : shown (joined s) = shown s := by
  by_cases hk : edgeKind s = .accept
  · obtain ⟨-, -, hvalid, -⟩ := edgeKind_eq_accept.mp hk
    cases ho : s.outstanding with
    | nil => simp [shown, ho, joining_of_accept hk, isDue, hvalid]
    | cons p rest => rw [shown_of_cons ho, shown_of_cons (s := joined s) (congrArg (· ++ joining s) ho), joined_params]
  · rw [joined_of_not_accept hk]

/-- The output ports at an edge: the level `CMD_READY` is decided by, and the response shown. -/
theorem step_out {s t : State} (hop : s.phase = .operating) (hrst : s.pins.rst = false) (h : step s = .next t) :
    t.out = outputs s.tick (cmdReady s) (shown s) := by
  simp [step_next_operating hop hrst h, shown_joined]

@[simp] theorem outputs_cmdReady (tick : Nat) (ready : Bool) (r : Option Response) :
    (outputs tick ready r).cmdReady = ready := by
  cases r <;> rfl

@[simp] theorem outputs_rspValid (tick : Nat) (ready : Bool) (r : Option Response) :
    (outputs tick ready r).rspValid = r.isSome := by
  cases r <;> rfl

@[simp] theorem outputs_some_rspStatus (tick : Nat) (ready : Bool) (r : Response) :
    (outputs tick ready (some r)).rspStatus = r.status := rfl

@[simp] theorem outputs_some_rspResult (tick : Nat) (ready : Bool) (r : Response) :
    (outputs tick ready (some r)).rspResult = r.result := rfl

end Sys2Proof.Machine
end

section
/-! PROOFS. The invariant of the machine (10_state.md sections 2, 4 and 5, 20_memory.md section 5). A command that joins
brings its own answer, settling moves a response or none and lets time go on, and each part of the invariant is followed
through the two. -/

namespace Sys2Proof.Machine

/-! ## The order of commands and responses -/

/-- The commands accepted are those answered and then those outstanding, and the responses taken are those of the
former. -/
theorem inOrder_iff {s : State} :
    InOrder s ↔ ∃ answered, s.record.accepted = answered ++ s.outstanding.map Pending.entry ∧
      s.record.taken = answered.map (answerTo alphabetTable) := by
  constructor
  · rintro ⟨hheld, htaken⟩
    exact ⟨s.record.accepted.take s.record.taken.length, by rw [← hheld, List.take_append_drop], htaken⟩
  · rintro ⟨answered, hacc, htaken⟩
    have hlen : s.record.taken.length = answered.length := by rw [htaken, List.length_map]
    exact ⟨by rw [hacc, hlen, List.drop_left], by rw [hacc, hlen, List.take_left, htaken]⟩

theorem joined_inOrder {s : State} (h : InOrder s) : InOrder (joined s) := by
  obtain ⟨answered, hacc, htaken⟩ := inOrder_iff.mp h
  exact inOrder_iff.mpr ⟨answered, by simp [hacc], htaken⟩

theorem settle_inOrder {s : State} (hf : AnswersFaithful s) (h : InOrder s) (ready accepted : Bool) :
    InOrder (settle ready accepted s) := by
  obtain ⟨answered, hacc, htaken⟩ := inOrder_iff.mp h
  obtain ⟨hsplit, hmoved⟩ := takeOldest_delivered s
  have hentries : s.outstanding.map Pending.entry =
      (delivered s).map Pending.entry ++ (takeOldest s).outstanding.map Pending.entry := by
    rw [← List.map_append, ← hsplit]
  have hrsp : (delivered s).map Pending.rsp = ((delivered s).map Pending.entry).map (answerTo alphabetTable) := by
    rw [List.map_map, List.map_inj_left]
    exact fun p hp => hf p (hsplit ▸ List.mem_append_left _ hp)
  refine inOrder_iff.mpr ⟨answered ++ (delivered s).map Pending.entry, ?_, ?_⟩
  · simp [hacc, hentries, Function.comp_def]
  · rw [settle_record, hmoved, htaken, hrsp, List.map_append]

/-! ## The answers held -/

/-- The command that joins is answered by `Exec` on its word and its own sample. -/
theorem joined_faithful {s : State} (hrom : RomIntact s) (h : AnswersFaithful s) : AnswersFaithful (joined s) := by
  intro p hp
  rcases List.mem_append.mp hp with hp | hp
  · exact h p hp
  · unfold joining at hp
    split at hp
    · obtain rfl := List.mem_singleton.mp hp
      rw [answerTo_acceptedOf, hrom]
    · cases hp

theorem mem_of_mem_takeOldest {s : State} {p : Pending} (h : p ∈ (takeOldest s).outstanding) : p ∈ s.outstanding := by
  rw [(takeOldest_delivered s).1]
  exact List.mem_append_right _ h

theorem settle_faithful {s : State} (h : AnswersFaithful s) (ready accepted : Bool) :
    AnswersFaithful (settle ready accepted s) := by
  intro p hp
  obtain ⟨q, hq, rfl⟩ := List.mem_map.mp hp
  exact h q (mem_of_mem_takeOldest hq)

/-! ## The samples held -/

/-- The command that joins has a sample exactly when it is a legal GEN_NOW (42_generate.md R152). -/
theorem joined_samples {s : State} (h : SamplesRight s) : SamplesRight (joined s) := by
  intro a ha
  rcases List.mem_append.mp ha with ha | ha
  · exact h a ha
  · unfold joining at ha
    split at ha
    · obtain rfl := List.mem_singleton.mp ha
      cases hs : samplesNow s.pins.cmd <;> simp [acceptedOf, hs]
    · cases ha

/-! ## The ages -/

/-- After an edge every outstanding command is at least one edge old, and the order of ages is as it was. -/
theorem settle_ages {s : State} (h : s.outstanding.Pairwise fun p q => q.age < p.age) (ready accepted : Bool) :
    AgesOrdered (settle ready accepted s) := by
  rw [(takeOldest_delivered s).1] at h
  obtain ⟨-, hstay, -⟩ := List.pairwise_append.mp h
  refine ⟨?_, fun p hp => ?_⟩
  · simpa [List.pairwise_map] using hstay
  · obtain ⟨q, -, rfl⟩ := List.mem_map.mp hp
    simp

/-- The command that joins is younger than all before it. -/
theorem joined_ages {s : State} (h : AgesOrdered s) : (joined s).outstanding.Pairwise fun p q => q.age < p.age := by
  obtain ⟨hpair, hpos⟩ := h
  by_cases hk : edgeKind s = .accept
  · rw [joined_outstanding, joining_of_accept hk, List.pairwise_append]
    exact ⟨hpair, List.pairwise_singleton .., fun p hp q hq => List.mem_singleton.mp hq ▸ hpos p hp⟩
  · rwa [joined_of_not_accept hk]

/-! ## The capacity -/

theorem takeOldest_length_le (s : State) : (takeOldest s).outstanding.length ≤ s.outstanding.length := by
  rw [(takeOldest_delivered s).1, List.length_append]
  exact Nat.le_add_left ..

/-- A command is accepted only where one of the commands that are then outstanding leaves, or all of them fit
(10_state.md R30). -/
theorem takeOldest_joined_length_le {s : State} (hp : ParamsInRange s.params)
    (h : s.outstanding.length ≤ s.params.maxOutstanding) :
    (takeOldest (joined s)).outstanding.length ≤ s.params.maxOutstanding := by
  by_cases hk : edgeKind s = .accept
  · obtain ⟨-, -, -, hready⟩ := edgeKind_eq_accept.mp hk
    have hroom : hasRoom s = true := (Bool.and_eq_true_iff.mp hready).2
    have hle := takeOldest_length_le (joined s)
    simp only [joined_outstanding, joining_of_accept hk, List.length_append, List.length_singleton] at hle
    cases ho : s.outstanding with
    | nil =>
      rw [ho, List.length_nil] at hle
      exact hle.trans hp.1
    | cons p rest =>
      rw [ho, List.length_cons] at hle
      simp only [hasRoom, ho, Bool.or_eq_true, decide_eq_true_eq] at hroom
      rcases hroom with hfits | htaken
      · omega
      · have hj : (takeOldest (joined s)).outstanding = rest ++ joining s := by
          simp only [takeOldest, joined_outstanding, ho, List.cons_append]
          exact congrArg State.outstanding (if_pos htaken)
        rw [ho, List.length_cons] at h
        rw [hj, joining_of_accept hk, List.length_append, List.length_singleton]
        exact h
  · rw [joined_of_not_accept hk]
    exact (takeOldest_length_le s).trans h

/-! ## Latency 0 -/

/-- At latency 0 a command that joins is delivered at once (70_reset_and_hazards.md R207). -/
theorem takeOldest_joined_of_latency_zero {s : State} (hl : s.params.latency = 0) (ho : s.outstanding = []) :
    (takeOldest (joined s)).outstanding = [] := by
  by_cases hk : edgeKind s = .accept
  · obtain ⟨-, -, -, hready⟩ := edgeKind_eq_accept.mp hk
    have hrsp : s.pins.rspReady = true := by simp_all [cmdReady]
    simp [takeOldest, ho, joining_of_accept hk, isDue, hl, hrsp]
  · rw [joined_of_not_accept hk]
    simp [takeOldest, ho]

/-! ## The invariant -/

/-- The state after a reset edge meets the invariant, whatever was outstanding. -/
theorem resetEdge_inv {s : State} (hrom : RomIntact s) (hp : ParamsInRange s.params) : MachineInv (resetEdge s) where
  rom := hrom
  params := hp
  capacity := Nat.zero_le _
  faithful := by simp [AnswersFaithful]
  ages := by simp [AgesOrdered]
  combinational hl := ⟨rfl, if_pos hl⟩
  inOrder := ⟨rfl, rfl⟩
  samples := by simp [SamplesRight, Record.empty]

/-- The invariant says nothing of the ports, the script and the edge count, which alone an edge before the first reset
changes. -/
theorem powerUpEdge_inv {s t : State} (h : MachineInv s) (hs : powerUpEdge s = .next t) : MachineInv t := by
  obtain ⟨-, out, rfl⟩ := powerUpEdge_next hs
  exact ⟨h.rom, h.params, h.capacity, h.faithful, h.ages, h.combinational, h.inOrder, h.samples⟩

/-- An edge that is settled keeps the invariant. -/
theorem settle_joined_inv {s : State} (h : MachineInv s) (ready : Bool) :
    MachineInv (settle ready (decide (edgeKind s = .accept)) (joined s)) where
  rom := by simpa [RomIntact] using h.rom
  params := by simpa using h.params
  capacity := by simpa using takeOldest_joined_length_le h.params h.capacity
  faithful := settle_faithful (joined_faithful h.rom h.faithful) _ _
  ages := settle_ages (joined_ages h.ages) _ _
  combinational hl := by
    have hl : s.params.latency = 0 := by simpa using hl
    obtain ⟨ho, hstall⟩ := h.combinational hl
    simp [takeOldest_joined_of_latency_zero hl ho, drawStall, hl, hstall]
  inOrder := settle_inOrder (joined_faithful h.rom h.faithful) (joined_inOrder h.inOrder) _ _
  samples := by simpa [SamplesRight] using joined_samples h.samples

/-- Every step keeps the invariant. -/
theorem step_inv {s t : State} (h : MachineInv s) (hs : step s = .next t) : MachineInv t := by
  rcases step_next_cases hs with ⟨-, rfl⟩ | ⟨-, -, hp⟩ | ⟨-, -, rfl⟩
  · exact resetEdge_inv h.rom h.params
  · exact powerUpEdge_inv h hp
  · exact settle_joined_inv h _

/-- Settles O22: a reset edge establishes the invariant, an edge before the first reset does not touch what it is about,
and an edge that is settled keeps each part of it (`settle_joined_inv`). -/
theorem stepKeepsInvariant : Obligations.StepKeepsInvariant := fun _ _ => step_inv

end Sys2Proof.Machine
end

section
/-! PROOFS. Reset, power-up and the answers given (70_reset_and_hazards.md section 1, 60_exceptions.md section 1): which
steps there are, and what they leave of what was there. -/

namespace Sys2Proof.Machine

/-! ## The reset state and the reset edge -/

/-- Settles O20: nothing is outstanding and nothing recorded, and the constants are in their ranges by definition. -/
theorem resetMeetsInvariant : Obligations.ResetMeetsInvariant where
  rom := rfl
  params := by
    refine ⟨?_, fun hl => if_pos hl⟩
    change 1 ≤ Config.maxOutstanding
    unfold Config.maxOutstanding
    split <;> omega
  capacity := Nat.zero_le _
  faithful := by simp [AnswersFaithful, State.reset]
  ages := by simp [AgesOrdered, State.reset]
  combinational hl := ⟨rfl, if_pos hl⟩
  inOrder := ⟨rfl, rfl⟩
  samples := by simp [SamplesRight, State.reset, Record.empty]

/-- Settles O21: each is a field of the reset state. -/
theorem resetStateIsTheTable : Obligations.ResetStateIsTheTable := ⟨rfl, rfl, rfl, rfl, rfl⟩

theorem step_of_rst {s : State} (h : s.pins.rst = true) : step s = .next (resetEdge s) := by
  simp [step, edgeKind, h]

/-- Settles O23: the edge is the reset edge, which establishes the invariant (`resetEdge_inv`). -/
theorem resetEdgeEstablishesInvariant : Obligations.ResetEdgeEstablishesInvariant := fun s hrom hp hrst =>
  ⟨resetEdge s, step_of_rst hrst, resetEdge_inv hrom hp⟩

/-- Settles O26: by the fields of the reset edge, whose ports carry no response. -/
theorem resetEdgeDiscards : Obligations.ResetEdgeDiscards := fun s hrst =>
  ⟨resetEdge s, step_of_rst hrst, rfl, rfl, rfl, rfl, rfl, rfl, rfl⟩

/-- Settles O56: every kind of edge keeps the parameters (`step_params`). -/
theorem parametersAreConstant : Obligations.ParametersAreConstant := fun _ _ => step_params

/-! ## Before the first reset -/

theorem step_of_beforeReset {s : State} (hp : s.phase = .beforeReset) (hrst : s.pins.rst = false) :
    step s = powerUpEdge s := by
  simp [step, edgeKind, hp, hrst]

/-- Settles O35: the edge is that of a block powering up, which refuses a command and otherwise changes the ports, the
script and the edge count alone. -/
theorem noMeaningBeforeFirstReset : Obligations.NoMeaningBeforeFirstReset := by
  intro s hp hrst
  rw [step_of_beforeReset hp hrst, powerUpEdge]
  exact ⟨fun hv => if_pos hv, fun hv => ⟨_, if_neg (Bool.eq_false_iff.mp hv), hp, rfl, rfl, rfl, rfl, rfl⟩⟩

/-! ## Which steps answer -/

/-- A block whose answers are those of `Exec` holds no response with status 3. -/
theorem nonconforming_of_faithful {s : State} (h : AnswersFaithful s) : nonconforming s = false := by
  simp only [nonconforming, List.any_eq_false, beq_iff_eq]
  intro p hp
  rw [h p hp]
  exact execWord_status_ne_three _ _ _

/-- With a reset behind it, and the invariant, a step always answers. -/
theorem step_answers_of_operating {s : State} (h : MachineInv s) (hop : s.phase = .operating) :
    ∃ t, step s = .next t := by
  cases hrst : s.pins.rst with
  | true => exact ⟨_, step_of_rst hrst⟩
  | false =>
    have hc := nonconforming_of_faithful (joined_faithful h.rom h.faithful)
    exact ⟨_, (step_operating hop hrst).trans (closeEdge_next.mpr ⟨hc, rfl⟩)⟩

/-- Settles O24: after the first reset by `step_answers_of_operating`; before it a reset edge and an edge with nothing
presented answer, and a command presented is refused. -/
theorem stepAnswersFromInvariant : Obligations.StepAnswersFromInvariant := by
  intro s h
  cases hp : s.phase with
  | operating => exact .inl (step_answers_of_operating h hp)
  | beforeReset =>
    cases hrst : s.pins.rst with
    | true => exact .inl ⟨_, step_of_rst hrst⟩
    | false =>
      obtain ⟨hrefused, hnext⟩ := noMeaningBeforeFirstReset s hp hrst
      cases hv : s.pins.cmdValid with
      | true => exact .inr ⟨hrefused hv, rfl, rfl, rfl⟩
      | false =>
        obtain ⟨t, ht, -⟩ := hnext hv
        exact .inl ⟨t, ht⟩

/-! ## The answers given -/

theorem answers_joined (s : State) : answers (joined s) = answers s ++ (joining s).map Pending.rsp := by
  simp [answers]

theorem joining_length_le (s : State) : (joining s).length ≤ 1 := by
  unfold joining
  split <;> simp

/-- An edge without reset adds the answer of the command that joins, if one does, behind those given before. -/
theorem step_answers {s t : State} (h : step s = .next t) (hrst : s.pins.rst = false) :
    answers t = answers s ++ (joining s).map Pending.rsp := by
  rcases step_next_cases h with ⟨hr, -⟩ | ⟨-, hb, hp⟩ | ⟨-, -, rfl⟩
  · simp [hrst] at hr
  · have hj : joining s = [] := by
      refine joining_of_not_accept fun hk => ?_
      obtain ⟨-, hop, -⟩ := edgeKind_eq_accept.mp hk
      simp [hb] at hop
    obtain ⟨-, out, rfl⟩ := powerUpEdge_next hp
    simp [hj, answers]
  · rw [answers_settle, answers_joined]

/-- Settles O28: the one answer added is that of the command that joins (`step_answers`). -/
theorem answersAreNeverChanged : Obligations.AnswersAreNeverChanged := fun s _ h hrst =>
  ⟨(joining s).map Pending.rsp, step_answers h hrst, by simpa using joining_length_le s,
    fun hk => by rw [joining_of_not_accept hk, List.map_nil]⟩

/-! ## Status 3 -/

/-- What the port shows is an answer of `Exec`. -/
theorem exists_shown_eq_execWord {s : State} {r : Response} (hf : AnswersFaithful s) (h : shown s = some r) :
    ∃ rom w now, r = execWord rom w now := by
  rcases shown_some h with ⟨p, rest, ho, -, rfl⟩ | ⟨-, -, -, rfl⟩
  · exact ⟨_, _, _, hf p (ho ▸ List.mem_cons_self)⟩
  · exact ⟨_, _, _, rfl⟩

/-- Settles O36: no answer of `Exec` has status 3, and an error has the result 0; the response on the port is an answer of
`Exec`. -/
theorem statusThreeIsNeverShown : Obligations.StatusThreeIsNeverShown := by
  have hexec (rom : Vector Byte 64) (w : Cmd) (now : F64) : (execWord rom w now).status ≠ 3#2 ∧
      ((execWord rom w now).status ≠ 0#2 → (execWord rom w now).result = 0#64) :=
    ⟨execWord_status_ne_three rom w now, execWord_result_of_status_ne_statusOk⟩
  refine ⟨hexec, fun s t hinv hop hs hv => ?_⟩
  have hrst : s.pins.rst = false := by
    by_contra hr
    obtain rfl := Host.Outcome.next.inj ((step_of_rst (by simpa using hr)).symm.trans hs)
    simp at hv
  rw [step_out hop hrst hs] at hv ⊢
  rw [outputs_rspValid] at hv
  obtain ⟨r, hr⟩ := Option.isSome_iff_exists.mp hv
  obtain ⟨rom, w, now, rfl⟩ := exists_shown_eq_execWord hinv.faithful hr
  rw [hr]
  exact hexec rom w now

end Sys2Proof.Machine
end

section
/-! PROOFS. The handshake (10_state.md section 4) and the timing of the response port (70_reset_and_hazards.md R206,
R207): what is accepted and taken is what stands on the ports, a response stays there until it is taken, and it comes
`LATENCY` edges after acceptance. -/

namespace Sys2Proof.Machine

/-! ## The handshake levels -/

/-- At latency 0 the block is ready when the host is (70_reset_and_hazards.md R207). -/
theorem cmdReady_of_latency_zero {s : State} (h : MachineInv s) (hl : s.params.latency = 0) :
    cmdReady s = s.pins.rspReady := by
  obtain ⟨ho, hstall⟩ := h.combinational hl
  simp [cmdReady, hasRoom, ho, hstall, hl]

/-- At latency 0 every response on the port is that of a command accepted at once, if the host is ready. -/
theorem edgeKind_accept_of_latency_zero {s : State} (h : MachineInv s) (hop : s.phase = .operating)
    (hrst : s.pins.rst = false) (hl : s.params.latency = 0) :
    edgeKind s = .accept ↔ s.pins.cmdValid = true ∧ s.pins.rspReady = true := by
  simp [edgeKind_eq_accept, hop, hrst, cmdReady_of_latency_zero h hl]

/-- The oldest outstanding command is delivered when it is due and the host is ready. -/
theorem delivered_of_cons {s : State} {p : Pending} {rest : List Pending} (ho : s.outstanding = p :: rest) :
    delivered s = if s.params.latency ≤ p.age ∧ s.pins.rspReady = true then [p] else [] := by
  simp [delivered, ho, isDue, List.filter_singleton]

theorem delivered_of_nil {s : State} (ho : s.outstanding = []) : delivered s = [] := by
  simp [delivered, ho]

/-- A command that joins behind others does not change which one is delivered. -/
theorem delivered_joined_of_cons {s : State} {p : Pending} {rest : List Pending} (ho : s.outstanding = p :: rest) :
    delivered (joined s) = if s.params.latency ≤ p.age ∧ s.pins.rspReady = true then [p] else [] := by
  rw [delivered_of_cons (s := joined s) (congrArg (· ++ joining s) ho), joined_params, joined_pins]

/-- With nothing outstanding, a command that joins is delivered at once at latency 0 alone. -/
theorem delivered_joined_of_nil {s : State} (ho : s.outstanding = []) (hl : 1 ≤ s.params.latency) :
    delivered (joined s) = [] := by
  by_cases hk : edgeKind s = .accept
  · have hj := (congrArg (· ++ joining s) ho).trans (joining_of_accept hk)
    rw [delivered_of_cons (s := joined s) hj, joined_params]
    exact if_neg fun hd => absurd hd.1 (Nat.not_le.mpr hl)
  · rw [joined_of_not_accept hk, delivered_of_nil ho]

/-- The response delivered at an edge is the one on the port, if the host is ready. -/
theorem delivered_joined_rsp {s : State} (h : MachineInv s) (hop : s.phase = .operating) (hrst : s.pins.rst = false) :
    (delivered (joined s)).map Pending.rsp = if s.pins.rspReady then (shown s).toList else [] := by
  cases ho : s.outstanding with
  | cons p rest =>
    rw [delivered_joined_of_cons ho, shown_of_cons ho]
    by_cases hd : s.params.latency ≤ p.age <;> cases s.pins.rspReady <;> simp [hd]
  | nil =>
    by_cases hl : s.params.latency = 0
    · have hk := edgeKind_accept_of_latency_zero h hop hrst hl
      by_cases hacc : edgeKind s = .accept
      · obtain ⟨hv, hr⟩ := hk.mp hacc
        have hj := (congrArg (· ++ joining s) ho).trans (joining_of_accept hacc)
        simp [delivered_of_cons (s := joined s) hj, shown_of_nil ho, hl, hv, hr]
      · rw [joined_of_not_accept hacc, delivered_of_nil ho, shown_of_nil ho]
        rw [hk] at hacc
        cases hv : s.pins.cmdValid <;> cases hr : s.pins.rspReady <;> simp_all
    · rw [delivered_joined_of_nil ho (by omega), shown_of_nil ho]
      simp [hl]

/-- Settles O57: the command that joins is the one on the port at an edge with both levels 1, and the response delivered
the one shown to a host that is ready (`delivered_joined_rsp`). -/
theorem handshakeIsOnThePorts : Obligations.HandshakeIsOnThePorts := by
  intro s t hinv hop hrst hs
  have hout := step_out hop hrst hs
  have hready : t.out.cmdReady = cmdReady s := by rw [hout, outputs_cmdReady]
  refine ⟨hready, ?_, ?_⟩
  · rw [step_accepted hop hrst hs, hready]
    split
    next hv =>
      exact ⟨acceptedOf s.pins.cmd (sampleNow s), rfl,
        by rw [joining_of_accept (edgeKind_eq_accept.mpr ⟨hrst, hop, hv⟩)]; rfl⟩
    next hv =>
      have hk : edgeKind s ≠ .accept := fun hk => by
        obtain ⟨-, -, hlevels⟩ := edgeKind_eq_accept.mp hk
        exact hv hlevels
      rw [joining_of_not_accept hk, List.map_nil, List.append_nil]
  · rw [step_taken hop hrst hs, delivered_joined_rsp hinv hop hrst, hout]
    cases hr : s.pins.rspReady <;> cases hsh : shown s <;> simp

/-- Settles O58: with nothing outstanding the port shows a response at latency 0 alone (`shown_of_nil`), and without an
acceptance nothing joins. -/
theorem portIsSilentUntilFirstAcceptance : Obligations.PortIsSilentUntilFirstAcceptance := by
  intro s t _ hop hl ho hs
  cases hrst : s.pins.rst with
  | true =>
    obtain rfl := Host.Outcome.next.inj ((step_of_rst hrst).symm.trans hs)
    exact ⟨rfl, fun _ => rfl⟩
  | false =>
    refine ⟨?_, fun hk => ?_⟩
    · rw [step_out hop hrst hs, outputs_rspValid, shown_of_nil ho, if_neg (by omega)]
      rfl
    · rw [step_outstanding hop hrst hs, joined_of_not_accept hk]
      simp [takeOldest, ho]

/-! ## A response is held -/

/-- The oldest outstanding command stays the oldest at an edge that does not deliver it. -/
theorem step_oldest_stays {s t : State} {p : Pending} {rest : List Pending} (hop : s.phase = .operating)
    (hrst : s.pins.rst = false) (hs : step s = .next t) (ho : s.outstanding = p :: rest)
    (hstay : ¬ (s.params.latency ≤ p.age ∧ s.pins.rspReady = true)) : ∃ rest', t.outstanding = p.older :: rest' := by
  have hsplit := step_outstanding_split hop hrst hs
  rw [delivered_joined_of_cons ho, if_neg hstay, ho] at hsplit
  exact ⟨_, hsplit.symm⟩

/-- A response that is shown and not taken is shown at the next edge: its command stays the oldest, and at latency 0 the
host holds the word and the clock. -/
theorem shown_of_not_taken {s t : State} (h : MachineInv s) (hop : s.phase = .operating) (hrst : s.pins.rst = false)
    (hwait : s.pins.rspReady = false) (hs : step s = .next t) (hv : (shown s).isSome = true)
    (hheld : s.params.latency = 0 →
      t.pins.cmdValid = s.pins.cmdValid ∧ t.pins.cmd = s.pins.cmd ∧ sampleNow t = sampleNow s) :
    shown t = shown s := by
  cases ho : s.outstanding with
  | cons p rest =>
    obtain ⟨rest', ho'⟩ := step_oldest_stays hop hrst hs ho (by simp [hwait])
    rw [shown_of_cons ho', shown_of_cons ho, step_params hs]
    rw [shown_of_cons ho] at hv
    have hd : s.params.latency ≤ p.age := by simpa using hv
    simp [hd, hd.trans (Nat.le_succ _)]
  | nil =>
    rw [shown_of_nil ho] at hv
    obtain ⟨hl, hcv⟩ : s.params.latency = 0 ∧ s.pins.cmdValid = true := by simpa using hv
    obtain ⟨hv', hcmd, hnow⟩ := hheld hl
    have ho' := ((step_inv h hs).combinational ((congrArg Params.latency (step_params hs)).trans hl)).1
    rw [shown_of_nil ho', shown_of_nil ho, step_params hs, hv', hcmd, hnow, step_alphabet hs]

/-- Settles O29: the port shows at both edges what `shown_of_not_taken` has equal. -/
theorem responseIsHeldUntilTaken : Obligations.ResponseIsHeldUntilTaken := by
  intro s t u hinv hop hrst hwait hs hv hrst' hheld hs'
  rw [step_out hop hrst hs] at hv ⊢
  rw [outputs_rspValid] at hv
  rw [step_out (step_phase hop hs) hrst' hs', shown_of_not_taken hinv hop hrst hwait hs hv hheld]
  obtain ⟨r, hr⟩ := Option.isSome_iff_exists.mp hv
  rw [hr]
  exact ⟨rfl, rfl, rfl⟩

/-! ## Latency 0 -/

/-- Settles O31: nothing is outstanding before or after the edge, the port shows `Exec` on the word presented
(`shown_of_nil`), and the block is ready when the host is. -/
theorem zeroLatencyIsCombinational : Obligations.ZeroLatencyIsCombinational := by
  intro s t hinv hop hrst hl hs
  obtain ⟨ho, -⟩ := hinv.combinational hl
  obtain ⟨ho', -⟩ := (step_inv hinv hs).combinational ((congrArg Params.latency (step_params hs)).trans hl)
  rw [step_out hop hrst hs, shown_of_nil ho, hinv.rom]
  refine ⟨?_, ?_, ho', hinv.params.2 hl, fun hv => ?_⟩
  · cases hv : s.pins.cmdValid <;> simp [hl]
  · rw [outputs_cmdReady, cmdReady_of_latency_zero hinv hl]
  · rw [if_pos ⟨hl, hv⟩]
    exact ⟨rfl, rfl⟩

end Sys2Proof.Machine
end

section
/-! PROOFS. Timing without back-pressure (70_reset_and_hazards.md R207): while no response is overdue and the host is
ready, the commands `LATENCY` edges old are the oldest one or none, it is delivered, and again none is overdue. -/

namespace Sys2Proof.Machine

/-- No response is overdue. -/
def NoneOverdue (s : State) : Prop := ∀ p ∈ s.outstanding, p.age ≤ s.params.latency

/-- Only the oldest command can be `LATENCY` edges old, the ages being ordered; then it is shown and delivered, and
otherwise nothing is. -/
theorem due_or_none_due {s : State} (h : MachineInv s) (hl : 1 ≤ s.params.latency) (hage : NoneOverdue s)
    (hready : s.pins.rspReady = true) :
    (∃ p rest, s.outstanding = p :: rest ∧ p.age = s.params.latency ∧ (∀ q ∈ rest, q.age ≠ s.params.latency) ∧
      shown s = some p.rsp ∧ delivered (joined s) = [p]) ∨
    ((∀ q ∈ s.outstanding, q.age ≠ s.params.latency) ∧ shown s = none ∧ delivered (joined s) = []) := by
  cases ho : s.outstanding with
  | nil =>
    refine .inr ⟨by simp, ?_, delivered_joined_of_nil ho hl⟩
    rw [shown_of_nil ho, if_neg (by omega)]
  | cons p rest =>
    obtain ⟨hpair, -⟩ := h.ages
    rw [ho] at hpair
    obtain ⟨hyounger, -⟩ := List.pairwise_cons.mp hpair
    have hp : p.age ≤ s.params.latency := hage p (ho ▸ List.mem_cons_self)
    have hrest : ∀ q ∈ rest, q.age ≠ s.params.latency := fun q hq => ((hyounger q hq).trans_le hp).ne
    rw [shown_of_cons ho, delivered_joined_of_cons ho, hready]
    by_cases hd : p.age = s.params.latency
    · exact .inl ⟨p, rest, rfl, hd, hrest, by simp [hd], by simp [hd]⟩
    · have hn : ¬ s.params.latency ≤ p.age := fun hle => hd (hp.antisymm hle)
      exact .inr ⟨List.forall_mem_cons.mpr ⟨hd, hrest⟩, by simp [hn], by simp [hn]⟩

/-- The port shows the response of the command `LATENCY` edges old, and none if there is no such command. -/
theorem shown_of_noneOverdue {s : State} (h : MachineInv s) (hl : 1 ≤ s.params.latency) (hage : NoneOverdue s)
    (hready : s.pins.rspReady = true) :
    (∀ p ∈ s.outstanding, p.age = s.params.latency → shown s = some p.rsp) ∧
    ((∀ p ∈ s.outstanding, p.age ≠ s.params.latency) → shown s = none) := by
  rcases due_or_none_due h hl hage hready with ⟨p, rest, ho, hp, hrest, hshown, -⟩ | ⟨hall, hshown, -⟩
  · rw [ho]
    refine ⟨fun q hq hqage => ?_, fun hnone => absurd hp (hnone p List.mem_cons_self)⟩
    obtain rfl := (List.mem_cons.mp hq).resolve_right fun hmem => hrest q hmem hqage
    exact hshown
  · exact ⟨fun q hq hqage => absurd hqage (hall q hq), fun _ => hshown⟩

/-- The one edge of R207: what is delivered and what is left outstanding. -/
theorem step_without_backpressure {s t : State} (h : MachineInv s) (hop : s.phase = .operating)
    (hrst : s.pins.rst = false) (hready : s.pins.rspReady = true) (hl : 1 ≤ s.params.latency) (hage : NoneOverdue s)
    (hs : step s = .next t) :
    t.record.taken = s.record.taken ++ (s.outstanding.filter fun p => p.age = s.params.latency).map Pending.rsp ∧
    t.outstanding =
      (s.outstanding.filter fun p => p.age ≠ s.params.latency).map Pending.older ++ (joining s).map Pending.older := by
  have hsplit := step_outstanding_split hop hrst hs
  rw [step_taken hop hrst hs]
  rcases due_or_none_due h hl hage hready with ⟨p, rest, ho, hp, hrest, -, hdel⟩ | ⟨hall, -, hdel⟩
  · have hdue : (p :: rest).filter (fun q => q.age = s.params.latency) = [p] := by
      rw [List.filter_cons_of_pos (by simpa using hp), List.filter_eq_nil_iff.mpr (by simpa using hrest)]
    have hothers : (p :: rest).filter (fun q => q.age ≠ s.params.latency) = rest := by
      rw [List.filter_cons_of_neg (by simpa using hp), List.filter_eq_self.mpr (by simpa using hrest)]
    rw [ho, hdel] at hsplit
    rw [ho, hdue, hothers, hdel, ← List.map_append]
    exact ⟨rfl, (List.cons.inj hsplit).2.symm⟩
  · have hdue : s.outstanding.filter (fun q => q.age = s.params.latency) = [] :=
      List.filter_eq_nil_iff.mpr (by simpa using hall)
    have hothers : s.outstanding.filter (fun q => q.age ≠ s.params.latency) = s.outstanding :=
      List.filter_eq_self.mpr (by simpa using hall)
    rw [hdel] at hsplit
    rw [hdue, hothers, hdel, ← List.map_append]
    exact ⟨rfl, hsplit.symm⟩

theorem age_of_mem_joining {s : State} {p : Pending} (h : p ∈ joining s) : p.age = 0 := by
  unfold joining at h
  split at h
  · rw [List.mem_singleton.mp h]
  · cases h

/-- Without back-pressure none becomes overdue. -/
theorem step_noneOverdue {s t : State} (h : MachineInv s) (hop : s.phase = .operating)
    (hrst : s.pins.rst = false) (hready : s.pins.rspReady = true) (hl : 1 ≤ s.params.latency) (hage : NoneOverdue s)
    (hs : step s = .next t) : NoneOverdue t := by
  obtain ⟨-, ho⟩ := step_without_backpressure h hop hrst hready hl hage hs
  intro p hp
  rw [step_params hs]
  rw [ho] at hp
  rcases List.mem_append.mp hp with hp | hp <;> obtain ⟨q, hq, rfl⟩ := List.mem_map.mp hp
  · obtain ⟨hmem, hne⟩ := List.mem_filter.mp hq
    exact (hage q hmem).lt_of_ne (by simpa using hne)
  · rw [Pending.older_age, age_of_mem_joining hq]
    exact hl

/-! ## The edges counted -/

/-- An outstanding command whose response is the one after `n` others since the last reset. -/
def WaitsBehind (s : State) (p : Pending) (n : Nat) : Prop :=
  ∃ before after, s.outstanding = before ++ p :: after ∧ s.record.taken.length + before.length = n

/-- A command that is not due yet keeps its place over an edge without reset, and is one edge older. -/
theorem step_waitsBehind {s t : State} {p : Pending} {n : Nat} (hop : s.phase = .operating) (hrst : s.pins.rst = false)
    (hs : step s = .next t) (hage : p.age < s.params.latency) (h : WaitsBehind (joined s) p n) :
    WaitsBehind t p.older n := by
  obtain ⟨before, after, ho, hn⟩ := h
  have hsplit := step_outstanding_split hop hrst hs
  rw [← joined_outstanding, ho] at hsplit
  have htaken := congrArg List.length (step_taken hop hrst hs)
  cases before with
  | nil =>
    have hdel : delivered (joined s) = [] := by
      rw [delivered_of_cons (s := joined s) ho]
      exact if_neg fun hd => absurd hd.1 (Nat.not_le.mpr hage)
    rw [hdel] at hsplit htaken
    exact ⟨[], after.map Pending.older, by simpa using hsplit.symm, by simpa [htaken] using hn⟩
  | cons q before =>
    rw [delivered_of_cons (s := joined s) ho] at hsplit htaken
    split at hsplit
    next hd =>
      rw [if_pos hd] at htaken
      refine ⟨before.map Pending.older, after.map Pending.older, by simpa using hsplit.symm, ?_⟩
      simp only [List.length_append, List.length_map, List.length_cons, List.length_nil, joined_taken] at htaken hn ⊢
      omega
    next hd =>
      rw [if_neg hd] at htaken
      refine ⟨(q :: before).map Pending.older, after.map Pending.older, by simpa using hsplit.symm, ?_⟩
      simp only [List.length_append, List.length_map, List.length_cons, List.length_nil, joined_taken] at htaken hn ⊢
      omega

/-- A command that joins goes behind the others. -/
theorem waitsBehind_joined {s : State} {p : Pending} {n : Nat} (h : WaitsBehind s p n) : WaitsBehind (joined s) p n := by
  obtain ⟨before, after, ho, hn⟩ := h
  exact ⟨before, after ++ joining s, by simp [ho], hn⟩

/-- A command that is due is the oldest, if none is overdue. -/
theorem WaitsBehind.oldest {s : State} {p : Pending} {n : Nat}
    (hpair : s.outstanding.Pairwise fun p q => q.age < p.age) (hage : NoneOverdue s)
    (hp : p.age = s.params.latency) (hw : WaitsBehind s p n) :
    (∃ rest, s.outstanding = p :: rest) ∧ s.record.taken.length = n := by
  obtain ⟨before, after, ho, hn⟩ := hw
  cases before with
  | nil => exact ⟨⟨after, ho⟩, hn⟩
  | cons q before =>
    rw [ho, List.cons_append] at hpair
    have holder : p.age < q.age := (List.pairwise_cons.mp hpair).1 p (by simp)
    have hq : q.age ≤ s.params.latency := hage q (by simp [ho])
    omega

/-- What holds of a block that keeps up with R207. -/
structure KeepsUp (latency : Nat) (s : State) : Prop where
  inv : MachineInv s
  operating : s.phase = .operating
  latency_eq : s.params.latency = latency
  noneOverdue : NoneOverdue s

theorem step_keepsUp {latency : Nat} {s t : State} (hl : 1 ≤ latency) (h : KeepsUp latency s)
    (hrst : s.pins.rst = false) (hready : s.pins.rspReady = true) (hs : step s = .next t) : KeepsUp latency t where
  inv := step_inv h.inv hs
  operating := step_phase h.operating hs
  latency_eq := (congrArg Params.latency (step_params hs)).trans h.latency_eq
  noneOverdue := step_noneOverdue h.inv h.operating hrst hready (h.latency_eq ▸ hl) h.noneOverdue hs

/-- A command that joins is not overdue. -/
theorem joined_noneOverdue {s : State} (h : NoneOverdue s) : NoneOverdue (joined s) := by
  intro p hp
  rcases List.mem_append.mp hp with hp | hp
  · exact h p hp
  · rw [age_of_mem_joining hp]
    exact Nat.zero_le _

section
variable {run : Nat → State} {latency : Nat} (hl : 1 ≤ latency) (h0 : KeepsUp latency (run 0))
  (hrun : ∀ k ≤ latency, (run k).pins.rst = false ∧ (run k).pins.rspReady = true ∧ step (run k) = .next (run (k + 1)))
  {a : Accepted} {r : Response} {n : Nat} (hw : WaitsBehind (joined (run 0)) { entry := a, rsp := r, age := 0 } n)
include hl h0 hrun hw

/-- The command accepted at edge 0 of a run without back-pressure is `k` edges old at edge `k`, in its place. -/
theorem run_waitsBehind (k : Nat) (hk : k ≤ latency) :
    KeepsUp latency (run k) ∧ WaitsBehind (joined (run k)) { entry := a, rsp := r, age := k } n := by
  induction k with
  | zero => exact ⟨h0, hw⟩
  | succ k ih =>
    obtain ⟨hup, hwk⟩ := ih (by omega)
    obtain ⟨hrst, hready, hs⟩ := hrun k (by omega)
    have hage : k < (run k).params.latency := by rw [hup.latency_eq]; omega
    exact ⟨step_keepsUp hl hup hrst hready hs, waitsBehind_joined (step_waitsBehind hup.operating hrst hs hage hwk)⟩

/-- At edge `LATENCY` it is the oldest, so its response is shown and taken, and only those before it were. -/
theorem run_delivers :
    shown (run latency) = some r ∧ (run latency).record.taken.length = n ∧
    (run (latency + 1)).record.taken = (run latency).record.taken ++ [r] := by
  obtain ⟨hup, hwait⟩ := run_waitsBehind hl h0 hrun hw latency le_rfl
  obtain ⟨hrst, hready, hs⟩ := hrun latency le_rfl
  obtain ⟨⟨rest, ho⟩, hn⟩ :=
    hwait.oldest (joined_ages hup.inv.ages) (joined_noneOverdue hup.noneOverdue) hup.latency_eq.symm
  have hdue : (joined (run latency)).params.latency ≤ latency := hup.latency_eq.le
  refine ⟨?_, hn, ?_⟩
  · rw [← shown_joined, shown_of_cons ho, if_pos hdue]
  · rw [step_taken hup.operating hrst hs, delivered_of_cons ho, if_pos ⟨hdue, hready⟩]
    rfl

end

/-- Settles O30: at one edge the command `LATENCY` edges old, if there is one, is the oldest (`due_or_none_due`), and the
others grow older by one; a command keeps its place until it is that old (`run_delivers`). -/
theorem responseComesAfterLatency : Obligations.ResponseComesAfterLatency := by
  refine ⟨fun s t h hop hrst hready hl hage hs => ?_, fun run h0 hop hl hage hrun hacc => ?_⟩
  · obtain ⟨htaken, ho⟩ := step_without_backpressure h hop hrst hready hl hage hs
    obtain ⟨hdue, hnone⟩ := shown_of_noneOverdue h hl hage hready
    rw [step_out hop hrst hs]
    refine ⟨htaken, ?_, fun p hp hpage => ?_, ?_, step_noneOverdue h hop hrst hready hl hage hs⟩
    · rw [outputs_rspValid]
      refine ⟨fun hv => ?_, fun ⟨p, hp, hpage⟩ => by rw [hdue p hp hpage]; rfl⟩
      by_contra hno
      rw [hnone fun p hp hpage => hno ⟨p, hp, hpage⟩] at hv
      cases hv
    · rw [hdue p hp hpage]
      exact ⟨rfl, rfl⟩
    · rw [ho, joining, h.rom]
      split <;> rfl
  · have hw : WaitsBehind (joined (run 0)) _ (run 0).record.accepted.length :=
      ⟨(run 0).outstanding, [], congrArg _ (joining_of_accept hacc), h0.answersMatchAccepted.accepted_length.symm⟩
    obtain ⟨hshown, hlen, htaken⟩ := run_delivers hl ⟨h0, hop, rfl, hage⟩ hrun hw
    obtain ⟨hup, -⟩ := run_waitsBehind hl ⟨h0, hop, rfl, hage⟩ hrun hw _ le_rfl
    obtain ⟨hrst, -, hs⟩ := hrun _ le_rfl
    rw [step_out hup.operating hrst hs, hshown, htaken, h0.rom]
    exact ⟨rfl, rfl, rfl, hlen, rfl⟩

end Sys2Proof.Machine
end

section
/-! PROOFS. Liveness (70_reset_and_hazards.md R201, R207, R208): ages grow until the oldest response is due, it is then
taken as soon as the host is ready, and `CMD_READY` rises when its hold is over. -/

namespace Sys2Proof.Machine

/-! ## No reset ahead -/

theorem NoResetAhead.rst {s : State} (h : NoResetAhead s) : s.pins.rst = false := h s.pins List.mem_cons_self

/-- A host that holds `RST` at 0 holds it at 0 from the next edge on. -/
theorem step_noResetAhead {s t : State} (h : NoResetAhead s) (hs : step s = .next t) : NoResetAhead t := by
  obtain ⟨hpins, hscript⟩ := step_pins hs
  rw [NoResetAhead, hpins, hscript]
  cases hsc : s.script with
  | nil => simp [InputPorts.idle]
  | cons q later => exact fun p hp => h p (List.mem_cons_of_mem _ (hsc ▸ hp))

/-! ## The oldest response becomes valid -/

/-- A due response is on the port. -/
theorem step_shows_due {s t : State} {p : Pending} {rest : List Pending} (hop : s.phase = .operating)
    (hrst : s.pins.rst = false) (ho : s.outstanding = p :: rest) (hd : s.params.latency ≤ p.age)
    (hs : step s = .next t) :
    t.out.rspValid = true ∧ t.out.rspStatus = p.rsp.status ∧ t.out.rspResult = p.rsp.result := by
  rw [step_out hop hrst hs, shown_of_cons ho, if_pos hd]
  exact ⟨rfl, rfl, rfl⟩

/-- The response of the oldest command shows within as many edges as are missing to its `LATENCY`. -/
theorem oldest_shows_within (n : Nat) {s : State} {p : Pending} {rest : List Pending} (h : MachineInv s)
    (hop : s.phase = .operating) (hahead : NoResetAhead s) (ho : s.outstanding = p :: rest)
    (hage : s.params.latency ≤ p.age + n) :
    ∃ m t, m ≤ n ∧ runEdges (m + 1) s = .next t ∧ t.out.rspValid = true ∧ t.out.rspStatus = p.rsp.status ∧
      t.out.rspResult = p.rsp.result := by
  induction n generalizing s p rest with
  | zero =>
    obtain ⟨t, hs⟩ := step_answers_of_operating h hop
    exact ⟨0, t, le_rfl, runEdges_succ.mpr ⟨t, hs, rfl⟩, step_shows_due hop hahead.rst ho hage hs⟩
  | succ n ih =>
    obtain ⟨t, hs⟩ := step_answers_of_operating h hop
    by_cases hd : s.params.latency ≤ p.age
    · exact ⟨0, t, Nat.zero_le _, runEdges_succ.mpr ⟨t, hs, rfl⟩, step_shows_due hop hahead.rst ho hd hs⟩
    · obtain ⟨rest', ho'⟩ := step_oldest_stays hop hahead.rst hs ho fun hc => hd hc.1
      have hage' : t.params.latency ≤ p.older.age + n := by
        rw [step_params hs, Pending.older_age]
        omega
      obtain ⟨m, u, hm, hrun, hport⟩ :=
        ih (step_inv h hs) (step_phase hop hs) (step_noResetAhead hahead hs) ho' hage'
      exact ⟨m + 1, u, Nat.succ_le_succ hm, runEdges_succ.mpr ⟨t, hs, hrun⟩, hport⟩

/-- A due response is taken at an edge where the host is ready. -/
theorem step_taken_of_due {s t : State} {p : Pending} {rest : List Pending} (hop : s.phase = .operating)
    (hrst : s.pins.rst = false) (ho : s.outstanding = p :: rest) (hd : s.params.latency ≤ p.age)
    (hready : s.pins.rspReady = true) (hs : step s = .next t) : t.record.taken = s.record.taken ++ [p.rsp] := by
  rw [step_taken hop hrst hs, delivered_joined_of_cons ho, if_pos ⟨hd, hready⟩]
  rfl

/-! ## Every answer is delivered -/

section
variable {run : Nat → State} (hrun : ∀ k, (run k).pins.rst = false ∧ step (run k) = .next (run (k + 1)))
include hrun

/-- Along a run without reset, answers are only added. -/
theorem run_answers_prefix {k m : Nat} (hkm : k ≤ m) : answers (run k) <+: answers (run m) := by
  induction m, hkm using Nat.le_induction with
  | base => exact List.prefix_rfl
  | succ m _ ih =>
    obtain ⟨hrst, hs⟩ := hrun m
    exact ih.trans (step_answers hs hrst ▸ List.prefix_append ..)

variable (hop0 : (run 0).phase = .operating)
include hop0

theorem run_phase_params (k : Nat) : (run k).phase = .operating ∧ (run k).params = (run 0).params := by
  induction k with
  | zero => exact ⟨hop0, rfl⟩
  | succ k ih =>
    obtain ⟨hop, hparams⟩ := ih
    obtain ⟨-, hs⟩ := hrun k
    exact ⟨step_phase hop hs, (step_params hs).trans hparams⟩

/-- So are responses taken. -/
theorem run_taken_length_mono : Monotone fun k => (run k).record.taken.length :=
  monotone_nat_of_le_succ fun k => by
    obtain ⟨hop, -⟩ := run_phase_params hrun hop0 k
    obtain ⟨hrst, hs⟩ := hrun k
    simp [step_taken hop hrst hs]

/-- A command that is the oldest is taken, or `d` edges later it is the oldest still and at least `d` edges old. -/
theorem run_taken_or_ages {n : Nat} (hne : (run n).outstanding ≠ []) (d : Nat) :
    (run n).record.taken.length < (run (n + d)).record.taken.length ∨
    ∃ p rest, (run (n + d)).outstanding = p :: rest ∧ d ≤ p.age := by
  induction d with
  | zero =>
    obtain ⟨p, rest, ho⟩ := List.exists_cons_of_ne_nil hne
    exact .inr ⟨p, rest, ho, Nat.zero_le _⟩
  | succ d ih =>
    obtain ⟨hop, -⟩ := run_phase_params hrun hop0 (n + d)
    obtain ⟨hrst, hs⟩ := hrun (n + d)
    have hmono := run_taken_length_mono hrun hop0
    rcases ih with hlt | ⟨p, rest, ho, hage⟩
    · exact .inl (hlt.trans_le (hmono (Nat.le_succ _)))
    · by_cases hd : (run (n + d)).params.latency ≤ p.age ∧ (run (n + d)).pins.rspReady = true
      · have hlen : (run (n + d + 1)).record.taken.length = (run (n + d)).record.taken.length + 1 := by
          rw [step_taken_of_due hop hrst ho hd.1 hd.2 hs, List.length_append, List.length_singleton]
        exact .inl (lt_of_le_of_lt (hmono (Nat.le_add_right n d)) (hlen ▸ Nat.lt_succ_self _))
      · obtain ⟨rest', ho'⟩ := step_oldest_stays hop hrst hs ho hd
        exact .inr ⟨_, rest', ho', Nat.succ_le_succ hage⟩

variable (hready : ∀ k, ∃ m, k ≤ m ∧ (run m).pins.rspReady = true)
include hready

/-- With something outstanding, one more response is taken sooner or later. -/
theorem run_takes_one_more {n : Nat} (hne : (run n).outstanding ≠ []) :
    ∃ m, n ≤ m ∧ (run n).record.taken.length < (run m).record.taken.length := by
  obtain ⟨m, hm, hr⟩ := hready (n + (run 0).params.latency)
  obtain ⟨d, rfl⟩ := Nat.exists_eq_add_of_le ((Nat.le_add_right n _).trans hm)
  rcases run_taken_or_ages hrun hop0 hne d with hlt | ⟨p, rest, ho, hage⟩
  · exact ⟨n + d, Nat.le_add_right n d, hlt⟩
  · obtain ⟨hop, hparams⟩ := run_phase_params hrun hop0 (n + d)
    obtain ⟨hrst, hs⟩ := hrun (n + d)
    have hdue : (run (n + d)).params.latency ≤ p.age := by rw [hparams]; omega
    have hmono := run_taken_length_mono hrun hop0 (Nat.le_add_right n d)
    refine ⟨n + d + 1, by omega, ?_⟩
    rw [step_taken_of_due hop hrst ho hdue hr hs, List.length_append]
    exact Nat.lt_succ_of_le hmono

/-- As many responses are taken sooner or later as have been given at edge `k`. -/
theorem run_takes_all (k c : Nat) (hc : c ≤ (answers (run k)).length) :
    ∃ n, k ≤ n ∧ c ≤ (run n).record.taken.length := by
  induction c with
  | zero => exact ⟨k, le_rfl, Nat.zero_le _⟩
  | succ c ih =>
    obtain ⟨n, hkn, hn⟩ := ih (by omega)
    by_cases hne : (run n).outstanding = []
    · have hlen := (run_answers_prefix hrun hkn).length_le
      rw [answers.eq_def (run n), hne, List.map_nil, List.append_nil] at hlen
      exact ⟨n, hkn, hc.trans hlen⟩
    · obtain ⟨m, hnm, hm⟩ := run_takes_one_more hrun hop0 hready hne
      exact ⟨m, hkn.trans hnm, by omega⟩

/-- Every answer given is delivered, in order. -/
theorem run_delivers_all (k : Nat) : ∃ n, answers (run k) <+: (run n).record.taken := by
  obtain ⟨n, hkn, hn⟩ := run_takes_all hrun hop0 hready k _ le_rfl
  exact ⟨n, List.prefix_of_prefix_length_le (run_answers_prefix hrun hkn) (List.prefix_append ..) hn⟩

end

/-- Settles O32: the oldest command ages until it is due (`oldest_shows_within`), is taken when the host is ready
(`step_taken_of_due`), and so each after it (`run_delivers_all`). -/
theorem acceptedCommandIsAnsweredInBoundedTime : Obligations.AcceptedCommandIsAnsweredInBoundedTime :=
  ⟨fun s _ _ h hop hahead ho => oldest_shows_within s.params.latency h hop hahead ho (Nat.le_add_left ..),
   fun _ _ _ _ _ hop hrst ho hd hready hs => step_taken_of_due hop hrst ho hd hready hs,
   fun _ _ h hop hrst hs => ⟨_, step_accepted hop hrst hs, (step_inv h hs).answersMatchAccepted.accepted_length⟩,
   fun _ _ hop hrun hready => run_delivers_all hrun hop hready⟩

/-! ## `CMD_READY` rises -/

/-- Fewer commands than `MAX_OUTSTANDING` leave room for one more. -/
theorem hasRoom_of_length_lt {s : State} (h : s.outstanding.length < s.params.maxOutstanding) : hasRoom s = true := by
  cases ho : s.outstanding with
  | nil => simp [hasRoom, ho]
  | cons p rest =>
    rw [ho, List.length_cons] at h
    simp [hasRoom, ho, h]

/-- Settles O33, by induction on the edges of the hold: while it lasts nothing is accepted, so the room stays. -/
theorem readyWithinFinitelyManyEdges : Obligations.ReadyWithinFinitelyManyEdges := by
  intro s h hop hahead hroom
  induction hstall : s.stall generalizing s with
  | zero => exact ⟨s, rfl, by simp [cmdReady, hstall, hasRoom_of_length_lt hroom]⟩
  | succ n ih =>
    obtain ⟨t, hs⟩ := step_answers_of_operating h hop
    have hk : edgeKind s ≠ .accept := fun hk => by
      obtain ⟨-, -, -, hready⟩ := edgeKind_eq_accept.mp hk
      simp [cmdReady, hstall] at hready
    have hlen : t.outstanding.length < t.params.maxOutstanding := by
      rw [step_outstanding hop hahead.rst hs, joined_of_not_accept hk, step_params hs, List.length_map]
      exact (takeOldest_length_le s).trans_lt hroom
    have hstall' : t.stall = n := by
      rw [step_stall hop hahead.rst hs, if_neg hk, hstall, Nat.add_sub_cancel]
    obtain ⟨u, hu, hready⟩ :=
      ih t (step_inv h hs) (step_phase hop hs) (step_noResetAhead hahead hs) hlen hstall'
    exact ⟨u, runEdges_succ.mpr ⟨t, hs, hu⟩, hready⟩

end Sys2Proof.Machine
end

section
/-! PROOFS. The host that holds its command (70_reset_and_hazards.md R206), and blocks side by side (60_exceptions.md
R182): runs of one block by its own edges, whatever happens elsewhere. -/

namespace Sys2Proof.Machine

/-! ## The command the host holds -/

theorem operating_of_idle {s : State} (h : edgeKind s = .idle) : s.phase = .operating ∧ s.pins.rst = false := by
  unfold edgeKind at h
  cases hr : s.pins.rst <;> cases hp : s.phase <;> simp [hr, hp] at h ⊢

/-- While the block idles, a host that keeps R206 holds its command, and nothing is accepted. -/
theorem run_holds_command {run : Nat → State} {n : Nat}
    (hrun : ∀ k ≤ n, step (run k) = .next (run (k + 1)) ∧ HostObeys (run k) (run (k + 1)))
    (hv : (run 0).pins.cmdValid = true) (hidle : ∀ k < n, edgeKind (run k) = .idle) (k : Nat) (hk : k ≤ n) :
    (run k).pins.cmdValid = true ∧ (run k).pins.cmd = (run 0).pins.cmd ∧
    (run k).record.accepted = (run 0).record.accepted := by
  induction k with
  | zero => exact ⟨hv, rfl, rfl⟩
  | succ k ih =>
    obtain ⟨hvk, hcmd, hacc⟩ := ih (by omega)
    obtain ⟨hs, hholds, -⟩ := hrun k (by omega)
    have hi := hidle k (by omega)
    obtain ⟨hop, hrst⟩ := operating_of_idle hi
    obtain ⟨hv', hcmd'⟩ := hholds hvk hi
    refine ⟨hv', hcmd'.trans hcmd, ?_⟩
    rw [step_accepted hop hrst hs, joining_of_not_accept (by simp [hi]), hacc, List.map_nil, List.append_nil]

/-- Settles O34: the command on the port at the accepting edge is the one held since the first (`run_holds_command`), and
its clock is held at that edge. -/
theorem presentedCommandIsTheOneAccepted : Obligations.PresentedCommandIsTheOneAccepted := by
  intro run n hrun hv hidle hacc
  obtain ⟨-, hcmd, haccepted⟩ := run_holds_command hrun hv hidle n le_rfl
  obtain ⟨hs, -, hclock⟩ := hrun n le_rfl
  obtain ⟨hrst, hop, -, -⟩ := edgeKind_eq_accept.mp hacc
  refine ⟨acceptedOf (run n).pins.cmd (sampleNow (run n)), hcmd, ?_, fun hsamples => ?_⟩
  · rw [step_accepted hop hrst hs, haccepted, joining_of_accept hacc]
    rfl
  · have hsamples : samplesNow (run n).pins.cmd = true := hsamples
    rw [acceptedOf, if_pos hsamples, sampleNow_of_nowHeld (hclock hacc hsamples)]

/-! ## Blocks side by side -/

/-- One edge of a block that meets the invariant: it still does, and without a reset ahead its answers stay. -/
theorem advance_keeps {s : State} (h : MachineInv s) :
    MachineInv (advance s) ∧ (NoResetAhead s → NoResetAhead (advance s) ∧ answers s <+: answers (advance s)) := by
  unfold advance
  cases hs : step s with
  | next t =>
    exact ⟨step_inv h hs, fun hahead =>
      ⟨step_noResetAhead hahead hs, step_answers hs hahead.rst ▸ List.prefix_append ..⟩⟩
  | fault r => exact ⟨h, fun hahead => ⟨hahead, List.prefix_rfl⟩⟩
  | refused r => exact ⟨h, fun hahead => ⟨hahead, List.prefix_rfl⟩⟩

theorem advanceMany_keeps (n : Nat) {s : State} (h : MachineInv s) :
    MachineInv (advanceMany n s) ∧ (NoResetAhead s → answers s <+: answers (advanceMany n s)) := by
  induction n generalizing s with
  | zero => exact ⟨h, fun _ => List.prefix_rfl⟩
  | succ n ih =>
    obtain ⟨hinv, hnext⟩ := advance_keeps h
    obtain ⟨hinv', hlater⟩ := ih hinv
    refine ⟨hinv', fun hahead => ?_⟩
    obtain ⟨hahead', hprefix⟩ := hnext hahead
    exact hprefix.trans (hlater hahead')

/-- Under any schedule a block is where its own edges take it (60_exceptions.md R182). -/
theorem runSchedule_getElem? (blocks : List State) (schedule : List Nat) (k : Nat) :
    (runSchedule blocks schedule)[k]? = blocks[k]?.map (advanceMany (schedule.count k)) := by
  induction schedule generalizing blocks with
  | nil => simp [runSchedule, advanceMany]
  | cons j later ih =>
    rw [runSchedule, ih, advanceAt, List.getElem?_modify]
    by_cases hjk : j = k <;> cases blocks[k]? <;> simp [hjk, advanceMany]

/-- Settles O37: the block is where its own edges take it (`runSchedule_getElem?`), and those keep the invariant and the
answers (`advanceMany_keeps`). -/
theorem blocksSideBySideAnswerAsAlone : Obligations.BlocksSideBySideAnswerAsAlone := by
  intro blocks schedule k s hk h
  obtain ⟨hinv, hprefix⟩ := advanceMany_keeps (schedule.count k) h
  have hmatch := hinv.answersMatchAccepted
  exact ⟨_, by rw [runSchedule_getElem?, hk]; rfl, rfl, hinv, hmatch.taken_eq, hmatch.accepted_length, hprefix⟩

end Sys2Proof.Machine
end

section
/-! PROOFS. The characters of a value (41_encode.md sections 2 and 5): its eight sextets are its digits in base 64, the
alphabet names each digit by a character of its own, and order, inverse and standard Base64URL follow. -/

namespace Sys2Proof.Machine

/-- The eight slices, the first the most significant, put the value together (41_encode.md R122). -/
theorem sextets_append (v : U48) :
    sextetAt v 0 ++ sextetAt v 1 ++ sextetAt v 2 ++ sextetAt v 3 ++
      sextetAt v 4 ++ sextetAt v 5 ++ sextetAt v 6 ++ sextetAt v 7 = v := by
  simp only [sextetAt, BitVec.extractLsb'_append_extractLsb'_eq_extractLsb']
  exact BitVec.extractLsb'_eq_self

/-- Settles O44: the byte formulas give the slices (`sextetsOfBytes_eq_map_sextetAt`), and the slices are the value
(`sextets_append`). -/
theorem sextetsAreTheSlices : Obligations.SextetsAreTheSlices :=
  ⟨sextetsOfBytes_eq_map_sextetAt, fun v => (sextets_append v).symm⟩

/-- The eight sextets of a value, the most significant first. -/
def sextets (v : U48) : List Sextet := (List.range 8).map (sextetAt v)

/-- The characters of a result are those of the sextets. -/
theorem resultChars_encode48 (rom : Vector Byte 64) (v : U48) :
    resultChars (encode48 rom v) = (sextets v).map (alphabetAt rom) := by
  rw [resultChars, sextets, List.map_map, List.map_inj_left]
  exact fun i hi => resultByte_encode48 rom v (List.mem_range.mp hi)

/-! ## The alphabet -/

/-- Settles O52: by evaluation. -/
theorem alphabetContents : Obligations.AlphabetContents := by
  unfold Obligations.AlphabetContents
  decide +kernel

/-- The entries of the alphabet are those that the sextets name. -/
theorem mem_alphabet_iff {c : Byte} : c ∈ alphabetTable.toList ↔ ∃ i, alphabetAt alphabetTable i = c := by
  rw [Vector.mem_toList_iff, Vector.mem_iff_getElem]
  exact ⟨fun ⟨k, hk, hc⟩ => ⟨BitVec.ofNatLT k hk, hc⟩, fun ⟨i, hc⟩ => ⟨i.toNat, i.isLt, hc⟩⟩

/-- The index of an entry is where it stands, the entries being distinct. -/
theorem indexOf_alphabetAt (i : Sextet) : indexOf (alphabetAt alphabetTable i) = some i := by
  revert i
  decide +kernel

/-- The codes with an index are the entries of the alphabet. -/
theorem isSome_indexOf_iff (c : Byte) : (indexOf c).isSome = true ↔ c ∈ alphabetTable.toList := by
  have hall (i : Sextet) : i ∈ (List.range 64).map (BitVec.ofNat 6) :=
    List.mem_map.mpr ⟨i.toNat, List.mem_range.mpr i.isLt, by simp⟩
  rw [indexOf, List.find?_isSome, mem_alphabet_iff]
  simp only [beq_iff_eq]
  exact ⟨fun ⟨i, _, hi⟩ => ⟨i, hi⟩, fun ⟨i, hi⟩ => ⟨i, hall i, hi⟩⟩

/-- No entry is the padding character. -/
theorem alphabetAt_ne_padding (i : Sextet) : alphabetAt alphabetTable i ≠ 0x3D :=
  have ⟨_, _, hpadding⟩ := alphabetContents
  hpadding i.toFin

/-- Settles O50: the characters are the entries that the sextets name. -/
theorem charactersAreOfTheAlphabet : Obligations.CharactersAreOfTheAlphabet := by
  intro v
  rw [resultChars_encode48]
  refine ⟨by simp [sextets], fun c hc => ?_⟩
  obtain ⟨i, -, rfl⟩ := List.mem_map.mp hc
  exact ⟨mem_alphabet_iff.mpr ⟨i, rfl⟩, alphabetAt_ne_padding i⟩

/-- Settles O49: by evaluation. -/
theorem codeOrderFails : Obligations.CodeOrderFails := by
  unfold Obligations.CodeOrderFails
  decide

/-! ## The sextets as digits -/

/-- A sextet put behind a word is one more digit in base 64. -/
theorem toNat_append_sextet {n : Nat} (x : BitVec n) (d : Sextet) : (x ++ d).toNat = x.toNat * 64 + d.toNat := by
  rw [BitVec.toNat_append, ← Nat.shiftLeft_add_eq_or_of_lt d.isLt, Nat.shiftLeft_eq]

/-- Put together, the first sextet the most significant, the sextets spell the value in base 64. -/
theorem sextetsValue_sextets (v : U48) : sextetsValue (sextets v) 0 = v.toNat := by
  calc sextetsValue (sextets v) 0
    _ = (sextetAt v 0 ++ sextetAt v 1 ++ sextetAt v 2 ++ sextetAt v 3 ++
          sextetAt v 4 ++ sextetAt v 5 ++ sextetAt v 6 ++ sextetAt v 7).toNat := by
      simp only [toNat_append_sextet]
      simp [sextets, List.range_succ, sextetsValue]
    _ = v.toNat := congrArg BitVec.toNat (sextets_append v)

/-- Lists of digits of one length have the order of what they spell. -/
theorem sextetsValue_lt_iff {as bs : List Sextet} (hlen : as.length = bs.length) (x y : Nat) :
    sextetsValue as x < sextetsValue bs y ↔
      x < y ∨ (x = y ∧ lexLess (as.map BitVec.toNat) (bs.map BitVec.toNat) = true) := by
  induction as generalizing bs x y with
  | nil =>
    obtain rfl := List.length_eq_zero_iff.mp hlen.symm
    simp [sextetsValue, lexLess]
  | cons a as ih =>
    cases bs with
    | nil => simp at hlen
    | cons b bs =>
      have ha := a.isLt
      have hb := b.isLt
      rw [sextetsValue, sextetsValue, ih (by simpa using hlen)]
      simp only [List.map_cons, lexLess, Bool.or_eq_true, Bool.and_eq_true, decide_eq_true_eq]
      have hlt : x * 64 + a.toNat < y * 64 + b.toNat ↔ x < y ∨ (x = y ∧ a.toNat < b.toNat) := by omega
      have heq : x * 64 + a.toNat = y * 64 + b.toNat ↔ x = y ∧ a.toNat = b.toNat := by omega
      rw [hlt, heq]
      tauto

theorem indexString_encode48 (v : U48) : indexString (encode48 alphabetTable v) = (sextets v).map BitVec.toNat := by
  simp [indexString, resultChars_encode48, indexOf_alphabetAt]

/-- The order of the index strings is that of the values (41_encode.md R128). -/
theorem lexLess_indexString_iff (a b : U48) :
    lexLess (indexString (encode48 alphabetTable a)) (indexString (encode48 alphabetTable b)) = true ↔ a < b := by
  have h := sextetsValue_lt_iff (as := sextets a) (bs := sextets b) (by simp [sextets]) 0 0
  rw [sextetsValue_sextets, sextetsValue_sextets] at h
  rw [indexString_encode48, indexString_encode48, BitVec.lt_def, h]
  simp

/-- Settles O48: both orders are that of the base-64 digits (`lexLess_indexString_iff`). -/
theorem indexStringsKeepOrder : Obligations.IndexStringsKeepOrder := fun a b => (lexLess_indexString_iff a b).mpr

/-- Settles O53: the packed values are the normalized ones (`toNat_packV`), and their index strings have their order. -/
theorem genNowOrderNeedsOrderedSamples : Obligations.GenNowOrderNeedsOrderedSamples := by
  intro t₁ t₂
  rw [← toNat_packV, ← toNat_packV, ← Bool.not_eq_true, lexLess_indexString_iff, BitVec.lt_def, Nat.not_lt,
    Int.ofNat_le]

/-! ## The inverse -/

/-- A list is read whole exactly when each of its entries is read. -/
theorem isSome_mapM_iff {α β : Type} (f : α → Option β) (l : List α) :
    (l.mapM f).isSome = true ↔ ∀ a ∈ l, (f a).isSome = true := by
  induction l with
  | nil => simp
  | cons a l ih =>
    rw [List.forall_mem_cons, ← ih, List.mapM_cons]
    cases f a <;> cases l.mapM f <;> simp

/-- Settles O51: the index of each character is its sextet, and the sextets spell the value; an index there is for the
alphabet's codes alone. -/
theorem decodeOracleInvertsEncoder : Obligations.DecodeOracleInvertsEncoder := by
  refine ⟨fun v => ?_, fun r => ?_⟩
  · have hinv : indexOf ∘ alphabetAt alphabetTable = fun i => pure i := funext indexOf_alphabetAt
    rw [decode48, resultChars_encode48, List.mapM_map, hinv, List.mapM_pure, List.map_id']
    simp [sextetsValue_sextets]
  · simp only [decode48, Option.isSome_map, isSome_mapM_iff, isSome_indexOf_iff]

/-! ## Base64URL -/

/-- A slice of a slice is a slice. -/
theorem extractLsb'_extractLsb' {n start len start' len' : Nat} (x : BitVec n) (h : start' + len' ≤ len) :
    (x.extractLsb' start len).extractLsb' start' len' = x.extractLsb' (start + start') len' := by
  ext k hk
  simp [show start' + k < len by omega, Nat.add_assoc]

/-- Settles O47: each group of three bytes is a half of the value, whose four slices are sextets. -/
theorem encoderIsStandardBase64Url : Obligations.EncoderIsStandardBase64Url := by
  intro v
  have hhigh : (byteAt v 0 ++ byteAt v 1 ++ byteAt v 2 : BitVec 24) = v.extractLsb' 24 24 := by
    simp only [byteAt, BitVec.extractLsb'_append_extractLsb'_eq_extractLsb']
  have hlow : (byteAt v 3 ++ byteAt v 4 ++ byteAt v 5 : BitVec 24) = v.extractLsb' 0 24 := by
    simp only [byteAt, BitVec.extractLsb'_append_extractLsb'_eq_extractLsb']
  rw [resultChars_encode48]
  change _ = base64url [byteAt v 0, byteAt v 1, byteAt v 2, byteAt v 3, byteAt v 4, byteAt v 5]
  simp (disch := decide) only [base64url, hhigh, hlow, extractLsb'_extractLsb', Nat.reduceAdd]
  rfl

/-! ## GEN, PACK and ENCODE -/

/-- Settles O46: each command answers by its own rule (`exec_pack`, `exec_gen`, `exec_encode`), and the low 48 bits of the
PACK result are the packed value. -/
theorem genIsEncodeOfPack : Obligations.GenIsEncodeOfPack := by
  intro s p hrom
  have hpacked : ((packV p).setWidth 64 : BitVec 64).extractLsb' 0 48 = packV p := by
    rw [← BitVec.setWidth_eq_extractLsb' (by decide)]
    simp
  refine ⟨okResponse (encode48 s.alphabet (packV p)), okResponse ((packV p).setWidth 64), ?_, ?_, rfl, ?_, ?_⟩
  · simp [exec_pack, newest]
  · simp [exec_gen, newest]
  · simp [exec_encode, newest]
  · simp [exec_encode, newest, okResponse, hpacked]

end Sys2Proof.Machine
end

section
/-! PROOFS. The numbers (40_pack.md sections 2 and 4, 30_encoding.md R72): the normalization is the floor modulo 2^48, and
an integer of magnitude up to 2^53 has an exact pattern, the one the assembler gives it. -/

namespace Sys2Proof.Machine

/-! ## The normalization -/

/-- Settles O39: by the division of the floor into its 32-bit halves (`normalizedValue_eq_floor_emod`). -/
theorem normalizeIsFloorModulo : Obligations.NormalizeIsFloorModulo := normalizedValue_eq_floor_emod

/-- Settles O40: adding 2^48 adds it to the floor, an integer is its own floor, and a remainder modulo 2^48 has 48 bits. -/
theorem normalizeWraps : Obligations.NormalizeWraps := by
  simp only [Obligations.NormalizeWraps, normalizedValue_eq_floor_emod, Option.getD_some]
  refine ⟨fun x => ?_, fun v hv => ?_, fun x => ⟨Int.emod_nonneg _ (by decide), Int.emod_lt_of_pos _ (by decide)⟩⟩
  · have hfloor : ⌊x + 2 ^ 48⌋ = ⌊x⌋ + 2 ^ 48 := by
      rw [show x + 2 ^ 48 = x + ((2 ^ 48 : Int) : ℚ) by norm_num, Int.floor_add_intCast]
    rw [hfloor, Int.add_emod_right]
  · rw [Int.floor_intCast]
    split <;> omega

/-- Settles O41: a magnitude of 2^100 needs a scale of 48 (`scale_ge_of_abs_value_ge`), which leaves no bit below 2^48. -/
theorem hugeValuesPackToZero : Obligations.HugeValuesPackToZero := fun _ hf h =>
  have hscale := scale_ge_of_abs_value_ge h
  ⟨hscale, packV_of_scale_ge hf hscale⟩

/-! ## A pattern put together from its fields -/

/-- The pattern with a sign, a biased exponent and a fraction (40_pack.md R90). -/
def patternOf (negative : Bool) (exponent frac : Nat) : F64 :=
  BitVec.ofNat 64 ((if negative then 2 ^ 63 else 0) + (exponent * 2 ^ 52 + frac))

section
variable (negative : Bool) {exponent frac : Nat} (he : exponent < 2 ^ 11) (hf : frac < 2 ^ 52)
include he hf

theorem toNat_patternOf :
    (patternOf negative exponent frac).toNat = (if negative then 2 ^ 63 else 0) + (exponent * 2 ^ 52 + frac) := by
  rw [patternOf, BitVec.toNat_ofNat]
  apply Nat.mod_eq_of_lt
  split <;> omega

theorem signBit_patternOf : signBit (patternOf negative exponent frac) = negative := by
  have h := toNat_patternOf negative he hf
  rw [signBit, Bool.eq_iff_iff, beq_iff_eq, ← BitVec.toNat_inj, BitVec.extractLsb'_toNat, h, Nat.shiftRight_eq_div_pow]
  cases negative <;> simp <;> omega

theorem biasedExponent_patternOf : (biasedExponent (patternOf negative exponent frac)).toNat = exponent := by
  rw [biasedExponent, BitVec.extractLsb'_toNat, toNat_patternOf negative he hf, Nat.shiftRight_eq_div_pow]
  split <;> omega

theorem fraction_patternOf : (fraction (patternOf negative exponent frac)).toNat = frac := by
  rw [fraction, BitVec.extractLsb'_toNat, toNat_patternOf negative he hf, Nat.shiftRight_eq_div_pow]
  split <;> omega

/-- A normal pattern is finite, with the value of its fields (40_pack.md R92). -/
theorem value_patternOf (h0 : exponent ≠ 0) (hmax : exponent ≠ 0x7FF) :
    isFinite (patternOf negative exponent frac) = true ∧
    value (patternOf negative exponent frac) =
      (if negative then -1 else 1) * ((2 ^ 52 + frac : Nat) * 2 ^ ((exponent : Int) - 1075)) := by
  have hexp := biasedExponent_patternOf negative he hf
  have hne : biasedExponent (patternOf negative exponent frac) ≠ 0#11 := fun h => h0 (by rw [← hexp, h]; rfl)
  have hne' : biasedExponent (patternOf negative exponent frac) ≠ 0x7FF#11 := fun h => hmax (by rw [← hexp, h]; rfl)
  refine ⟨by simpa [isFinite] using hne', ?_⟩
  rw [value, signBit_patternOf negative he hf, significand, scale, if_neg hne, if_neg hne, hexp,
    fraction_patternOf negative he hf]

end

/-! ## The pattern of an integer -/

theorem roundHalfEven_one (n : Nat) : roundHalfEven n 1 = n := by
  simp [roundHalfEven, Nat.mod_one]

theorem quotientLog2_one {n : Nat} (h : n ≠ 0) : quotientLog2 n 1 = n.log2 := by
  have hlog : Nat.log2 1 = 0 := by decide
  simp [quotientLog2, hlog, Nat.log2_self_le h]

/-- An integer below 2^53 has at most 53 bits, and shifted up it has 53. -/
theorem shiftedUp_bounds {n : Nat} (h0 : n ≠ 0) (h : n < 2 ^ 53) :
    n.log2 ≤ 52 ∧ 2 ^ 52 ≤ n * 2 ^ (52 - n.log2) ∧ n * 2 ^ (52 - n.log2) < 2 ^ 53 := by
  have hlog : n.log2 ≤ 52 := Nat.le_of_lt_succ ((Nat.log2_lt h0).mpr h)
  refine ⟨hlog, ?_, ?_⟩
  · calc 2 ^ 52 = 2 ^ n.log2 * 2 ^ (52 - n.log2) := by rw [← pow_add, Nat.add_sub_cancel' hlog]
      _ ≤ n * 2 ^ (52 - n.log2) := Nat.mul_le_mul_right _ (Nat.log2_self_le h0)
  · calc n * 2 ^ (52 - n.log2) < 2 ^ (n.log2 + 1) * 2 ^ (52 - n.log2) :=
          Nat.mul_lt_mul_of_pos_right Nat.lt_log2_self (Nat.two_pow_pos _)
      _ = 2 ^ 53 := by rw [← pow_add, Nat.add_right_comm, Nat.add_sub_cancel' hlog]

/-- Below 2^53 nothing is rounded: the integer is shifted up until it has 53 bits (30_encoding.md R71). -/
theorem nearestMagnitude_of_lt {n : Nat} (h0 : n ≠ 0) (h : n < 2 ^ 53) :
    nearestMagnitude n 1 = (n.log2 + 1022) * 2 ^ 52 + n * 2 ^ (52 - n.log2) := by
  obtain ⟨hlog, -, hlt⟩ := shiftedUp_bounds h0 h
  have he : max ((n.log2 : Int) - 52) (-1074) = n.log2 - 52 := by omega
  have hexp : ((n.log2 : Int) - 52 + 1074).toNat = n.log2 + 1022 := by omega
  have hm : (if 0 ≤ (n.log2 : Int) - 52 then roundHalfEven n (1 * 2 ^ ((n.log2 : Int) - 52).toNat)
      else roundHalfEven (n * 2 ^ (-((n.log2 : Int) - 52)).toNat) 1) = n * 2 ^ (52 - n.log2) := by
    split
    next hge =>
      have h52 : n.log2 = 52 := by omega
      simp [h52, roundHalfEven_one]
    next hneg =>
      rw [roundHalfEven_one, show (-((n.log2 : Int) - 52)).toNat = 52 - n.log2 by omega]
  simp only [nearestMagnitude, quotientLog2_one h0, he, hexp, hm]
  rw [if_neg (by simp [h0]), Nat.min_eq_left]
  omega

/-- The pattern of a magnitude up to 2^53 has a normal exponent, and its significand is the magnitude shifted up. -/
theorem exists_nearestMagnitude {n : Nat} (h0 : n ≠ 0) (h : n ≤ 2 ^ 53) :
    ∃ exponent frac, exponent ≠ 0 ∧ exponent < 0x7FF ∧ frac < 2 ^ 52 ∧
      nearestMagnitude n 1 = exponent * 2 ^ 52 + frac ∧
      ((2 ^ 52 + frac : Nat) * 2 ^ ((exponent : Int) - 1075) : ℚ) = n := by
  rcases h.lt_or_eq with hlt | rfl
  · obtain ⟨hlog, hge, hub⟩ := shiftedUp_bounds h0 hlt
    refine ⟨n.log2 + 1023, n * 2 ^ (52 - n.log2) - 2 ^ 52, by omega, by omega, by omega, ?_, ?_⟩
    · rw [nearestMagnitude_of_lt h0 hlt]
      omega
    · rw [Nat.add_sub_cancel' hge, Nat.cast_mul, Nat.cast_pow, Nat.cast_ofNat, mul_assoc, ← zpow_natCast,
        ← zpow_add₀ two_ne_zero, show ((52 - n.log2 : Nat) : Int) + ((n.log2 + 1023 : Nat) - 1075) = 0 by omega,
        zpow_zero, mul_one]
  · exact ⟨1076, 0, by decide, by decide, by decide, by decide +kernel, by norm_num⟩

/-- The literal of an integer of magnitude up to 2^53 has that integer as its value (30_encoding.md R72). -/
theorem value_decimal {n : Int} (h : n.natAbs ≤ 2 ^ 53) :
    isFinite (F64Literal.decimal (decide (n < 0)) n.natAbs 1).pattern = true ∧
    value (F64Literal.decimal (decide (n < 0)) n.natAbs 1).pattern = n := by
  by_cases h0 : n = 0
  · subst h0
    decide +kernel
  · obtain ⟨exponent, frac, hpos, hmax, hf, hmag, hvalue⟩ := exists_nearestMagnitude (Int.natAbs_ne_zero.mpr h0) h
    have hpattern : (F64Literal.decimal (decide (n < 0)) n.natAbs 1).pattern =
        patternOf (decide (n < 0)) exponent frac := by
      rw [F64Literal.pattern, hmag, patternOf]
    obtain ⟨hfin, hval⟩ := value_patternOf (decide (n < 0)) (by omega) hf hpos hmax.ne
    rw [hpattern, hval, hvalue]
    refine ⟨hfin, ?_⟩
    by_cases hneg : n < 0
    · have hn : (n.natAbs : Int) = -n := by omega
      rw [← Int.cast_natCast, hn]
      simp [hneg]
    · have hn : (n.natAbs : Int) = n := by omega
      rw [← Int.cast_natCast, hn]
      simp [hneg]

/-- Settles O55: within the range the literal's value is the integer (`value_decimal`), and past it the assembler
refuses. -/
theorem pseudoInstructionIntegersAreExact : Obligations.PseudoInstructionIntegersAreExact := by
  refine fun n => ⟨fun h => ?_, fun h => ?_⟩
  · obtain ⟨hfin, hval⟩ := value_decimal h
    have hsome : exactInteger n = some (F64Literal.decimal (decide (n < 0)) n.natAbs 1).pattern := if_pos h
    exact ⟨_, hfin, hval, by simp [assemble, hsome], by simp [assemble, hsome]⟩
  · have hnone : exactInteger n = none := if_neg (Nat.not_le.mpr h)
    simp [assemble, hnone]

/-- Settles O42: the pattern is the literal's (`value_decimal`), and an integer of 48 bits is its own floor modulo
2^48. -/
theorem inRangeIntegersPackToThemselves : Obligations.InRangeIntegersPackToThemselves := by
  intro t
  have ht := t.isLt
  refine ⟨?_, fun p hf hv => ?_⟩
  · obtain ⟨hfin, hval⟩ := value_decimal (n := t.toNat) (by omega)
    exact ⟨_, hfin, by exact_mod_cast hval⟩
  · have hpack := toNat_packV_of_finite hf
    rw [floorInt_eq_floor_value, hv, Int.floor_natCast] at hpack
    exact BitVec.eq_of_toNat_eq (by omega)

end Sys2Proof.Machine
end

section
/-! PROOFS. The disassembler (30_encoding.md R71): a decoded word is printed by its mnemonic and a refused one by the
directive, and both assemble back. -/

namespace Sys2Proof.Machine

/-- The line of a command: its mnemonic, and its fields but for the reserved ones. -/
def lineOf : Instr → AsmLine
  | .pack _ operand => .pack (.raw operand)
  | .encode len _ bytes => .encode len bytes
  | .gen _ operand => .gen (.raw operand)
  | .genNow _ _ => .genNow

theorem disassemble_of_decode {w : Cmd} {i : Instr} (h : decode w = .instr i) : disassemble w = lineOf i := by
  rw [disassemble, h]
  cases i <;> rfl

/-- A refused word is disassembled to the directive. -/
theorem disassemble_of_illegal {w : Cmd} (h : IllegalSet w) : disassemble w = .word72 w := by
  obtain ⟨why, hd⟩ := decode_illegal_iff.mpr h
  rw [disassemble, hd]

/-- The words of the directive are the refused ones. -/
theorem disassemble_eq_word72_iff (w : Cmd) : disassemble w = .word72 w ↔ IllegalSet w := by
  refine ⟨fun hw => ?_, disassemble_of_illegal⟩
  cases h : decode w with
  | illegal why => exact decode_illegal_iff.mp ⟨why, h⟩
  | instr i =>
    rw [disassemble_of_decode h] at hw
    cases i <;> simp [lineOf] at hw

/-- A line assembles back to the word it was printed for: the reserved fields it leaves out are 0. -/
theorem assemble_disassemble (w : Cmd) : assemble (disassemble w) = some w := by
  cases h : decode w with
  | illegal why => rw [disassemble_of_illegal (decode_illegal_iff.mp ⟨why, h⟩), assemble]
  | instr i =>
    obtain ⟨hp, -⟩ := decode_eq_instr.mp h
    have hline : assemble (lineOf i) = some (encode i) := by
      rcases decode_instr_cases h with ⟨-, -, hi⟩ | ⟨-, -, hi⟩ | ⟨-, -, hi⟩ | ⟨-, -, -, hi⟩ <;> rw [hi] <;> rfl
    rw [disassemble_of_decode h, hline, encode_of_parse hp]

/-- The first word of a printed line is the mnemonic (log entry 18). -/
theorem takeWhile_disassembleText {w : Cmd} {i : Instr} (h : decode w = .instr i) :
    (disassembleText w).takeWhile (fun c => c != ' ') = (mnemonicOf i).toList := by
  rw [disassembleText, disassemble_of_decode h]
  cases i <;> simp [lineOf, mnemonicOf]

/-- Settles O54: the reserved fields a line leaves out are 0 (`assemble_disassemble`), and each mnemonic stands before
the one blank, or alone. -/
theorem disassemblyAssemblesBack : Obligations.DisassemblyAssemblesBack :=
  ⟨assemble_disassemble, disassemble_eq_word72_iff, fun _ _ => takeWhile_disassembleText,
   fun w h => by rw [disassembleText, disassemble_of_illegal h]⟩

end Sys2Proof.Machine
end
